-- ==== Sys2Proof/Word.lean ====
section
/-! DEFINITION. The word types of `chip8_core` (spec/00_scope.md R6): 4-bit fields, 8-bit data, 12-bit immediates,
16-bit instructions and addresses. -/

namespace Sys2Proof

/-- A 4-bit field of an instruction: a register number, a key code or a row count (R6, glossary "Nibble"). -/
abbrev Nibble := BitVec 4

/-- An 8-bit data value: a `V` register, a timer, a memory cell (R6 `XLEN`). -/
abbrev Byte := BitVec 8

/-- A 12-bit immediate `NNN` (R92). -/
abbrev Imm12 := BitVec 12

/-- A 16-bit value: an instruction, `I`, `PC`, a stack slot (R6 `ILEN`, `IWIDTH`, `PCWIDTH`). -/
abbrev Word := BitVec 16

end Sys2Proof
end

