-- ==== Sys2Proof/Config.lean ====
section
/-! DEFINITION. What is fixed for this hardware and what the spec leaves open (spec/00_scope.md R6,
spec/92_eei_decisions.md "Open parameters, gathered"). The font table, an open parameter with a default, stands in
Machine/Memory.lean beside the memory that reads it. `TIMER_HZ` and `PACING` are rates: the model has no time, and no
definition needs them (R280). -/

namespace Sys2Proof

/-- The byte the random source presents at the `n`-th draw, when no byte has been supplied for it in the state's own
stream (R152, R233; 93 U4 "any value"). It has no body: nothing in Lean can evaluate it or prove a value of it.
Safe: whatever is proved holds for every byte. Log entry 3. -/
opaque Config.randomByte : Nat → Byte

/-- `SHL_VF_NORMALISED` (R6, R150, D13): 8XYE writes bit 7 of `VX` to `VF` as 0 or 1. Fixed to true for this
hardware. Log entry 10. -/
def Config.shlVfNormalised : Bool := true

end Sys2Proof
end

