-- ==== Sys2Proof/Syntax.lean ====
section
/-! DEFINITION. The 34 instructions of the opcode table (spec/30_encoding.md R96), one constructor per row of
spec/opcode_table.json, in its order. The operand fields have exactly the widths of R92, so every value of every field
is a legal operand (R94). -/

namespace Sys2Proof

/-- The instruction set (R96). A constructor's comment gives its pattern and the rule that gives its meaning. -/
inductive Instr where
  /-- 00E0, clear the framebuffer (R180). -/
  | cls
  /-- 00EE, return from subroutine (R121). -/
  | ret
  /-- 1NNN, jump (R122). -/
  | jp (nnn : Imm12)
  /-- 2NNN, call subroutine (R123). -/
  | call (nnn : Imm12)
  /-- 3XNN, skip if `VX = NN` (R124). -/
  | seNn (x : Nibble) (nn : Byte)
  /-- 4XNN, skip if `VX ≠ NN` (R125). -/
  | sneNn (x : Nibble) (nn : Byte)
  /-- 5XY0, skip if `VX = VY` (R126). -/
  | seVy (x y : Nibble)
  /-- 6XNN, load immediate (R140). -/
  | ldNn (x : Nibble) (nn : Byte)
  /-- 7XNN, add immediate (R141). -/
  | addNn (x : Nibble) (nn : Byte)
  /-- 8XY0, copy register (R142). -/
  | ldVy (x y : Nibble)
  /-- 8XY1, bitwise or (R143). -/
  | or (x y : Nibble)
  /-- 8XY2, bitwise and (R144). -/
  | and (x y : Nibble)
  /-- 8XY3, bitwise exclusive or (R145). -/
  | xor (x y : Nibble)
  /-- 8XY4, add with carry out (R146). -/
  | addVy (x y : Nibble)
  /-- 8XY5, subtract (R147). -/
  | sub (x y : Nibble)
  /-- 8XY6, shift right by one (R148). `Y` is decoded and ignored (R102); the constructor keeps it so that no bit of
  the word is lost. -/
  | shr (x y : Nibble)
  /-- 8XY7, reverse subtract (R149). -/
  | subn (x y : Nibble)
  /-- 8XYE, shift left by one (R150). `Y` is decoded and ignored (R102). -/
  | shl (x y : Nibble)
  /-- 9XY0, skip if `VX ≠ VY` (R127). -/
  | sneVy (x y : Nibble)
  /-- ANNN, load index (R160). -/
  | ldI (nnn : Imm12)
  /-- BNNN, jump with offset `V0` (R128). -/
  | jpV0 (nnn : Imm12)
  /-- CXNN, random byte under mask (R152). -/
  | rnd (x : Nibble) (nn : Byte)
  /-- DXYN, draw a sprite (R181). -/
  | drw (x y n : Nibble)
  /-- EX9E, skip if key pressed, consuming the press (R190). -/
  | skp (x : Nibble)
  /-- EXA1, skip if key not pressed, consuming a press it sees (R191). -/
  | sknp (x : Nibble)
  /-- FX07, read the delay timer (R200). -/
  | ldVxDt (x : Nibble)
  /-- FX0A, wait for a key press (R192, R193). -/
  | ldVxK (x : Nibble)
  /-- FX15, set the delay timer (R201). -/
  | ldDtVx (x : Nibble)
  /-- FX18, set the sound timer (R202). -/
  | ldStVx (x : Nibble)
  /-- FX1E, add register to index (R161). -/
  | addI (x : Nibble)
  /-- FX29, point the index at a font glyph (R162). -/
  | ldF (x : Nibble)
  /-- FX33, store decimal digits (R163). -/
  | ldB (x : Nibble)
  /-- FX55, store registers (R165). -/
  | stRegs (x : Nibble)
  /-- FX65, load registers (R166). -/
  | ldRegs (x : Nibble)
  deriving DecidableEq, Repr

end Sys2Proof
end

