-- ==== Sys2Proof/Machine/State.lean ====
section
/-! DEFINITION. The state of the machine (spec/10_state.md R20), its reset value (R45), the steps of R211 as data, and
the reasons a step of the model can stop. -/

namespace Sys2Proof.Machine

/-- `RUN`, the sequencer's state (R33). The spec's encoding 3 "is never reached" and has no constructor. -/
inductive RunState where
  /-- 0: the next instruction step fetches and executes at `PC` -/
  | running
  /-- 1: an FX0A has been fetched and waits for a press -/
  | awaitKey
  /-- 2: terminal until reset -/
  | halted
  deriving DecidableEq, Repr

/-- The causes of the spec's four faults (R215). They are the spec's exceptions, whose entry (R217) the model takes:
each leads to a next state, not to a stop of the model. -/
inductive TrapCause where
  | illegalOpcode
  | memoryOutOfBounds
  | stackOverflow
  | stackUnderflow
  deriving DecidableEq, Repr

/-- One atomic step of the whole machine (R211): the core's own instruction step, or a step of one of the agents
outside it. -/
inductive MachineStep where
  /-- `InstructionStep` of the core (R210) -/
  | instruction
  /-- `TimerTick` of the timer-tick source (R225) -/
  | timerTick
  /-- `Press(k)` of the input producer (R228, R193) -/
  | press (k : Nibble)
  /-- `Release(k)` of the input producer (R228) -/
  | release (k : Nibble)
  /-- `Stop` of the input producer (R222) -/
  | stop
  /-- `Reset(ROM)` of the platform (R260) -/
  | reset (rom : List Byte)
  deriving DecidableEq, Repr

/-- A frame snapshot: all 2048 pixels of `FB` (R41, R232). Bit `k` is pixel `k = x + 64 y`. -/
abbrev Frame := BitVec 2048

/-- `MEM` (R37): the bytes that differ from the reset image without a program (font, else zero), as (address, byte)
pairs in canonical form. Machine/Memory.lean gives the reading and writing. -/
abbrev Memory := List Host.Cell

/-- Core state, environment state (R20), and the model's own four fields that stand for what the agents outside the
core supply (`schedule`, `rnd`, `draws`) and have been shown (`frames`). -/
structure State where
  /-- `V[0..15]`, the general registers; `V[15]` is the flag register VF (R21, R22) -/
  v : Vector Byte 16
  /-- `I`, the index register (R24) -/
  i : Word
  /-- `PC`, the address of the instruction being executed (R25) -/
  pc : Word
  /-- `STACK[0..15]`, call-site addresses (R29) -/
  stack : Vector Word 16
  /-- `SP`, the number of occupied slots, 5 bits (R30) -/
  sp : BitVec 5
  /-- `DT`, the delay timer (R32) -/
  dt : Byte
  /-- `ST`, the sound timer (R32) -/
  st : Byte
  /-- `RUN` (R33) -/
  run : RunState
  /-- `IR`, the instruction register (R34) -/
  ir : Word
  /-- `REDRAW`, the redraw flag (R35) -/
  redraw : Bool
  /-- `FAULT_CAUSE`, 3 bits (R36) -/
  faultCause : BitVec 3
  /-- `FAULT_INSTR` (R36) -/
  faultInstr : Word
  /-- `FAULT_PC` (R36) -/
  faultPc : Word
  /-- `MEM[0..4095]` (R37) -/
  mem : Memory
  /-- `FB[0..2047]`; bit `k` is pixel `k = x + 64 y`, 1 is lit (R38) -/
  fb : Frame
  /-- `KEYS[0..15]`; bit `k` is 1 when key `k` is pressed (R39) -/
  keys : BitVec 16
  /-- MODEL'S OWN: the bytes the random source will present, oldest first (the parameter `RND` of R6) -/
  rnd : List Byte
  /-- MODEL'S OWN: how many random bytes have been drawn; numbers the free values of `Config.randomByte` -/
  draws : Nat
  /-- MODEL'S OWN: the machine steps to come, in the order in which they interleave (R71, R211); when it is empty the
  core steps on by itself -/
  schedule : List MachineStep
  /-- MODEL'S OWN: the frame events emitted so far, oldest first (R41, R232) -/
  frames : List Frame
  deriving DecidableEq, Repr

/-- Reasons for which the model itself stops. Both belong to states no run from reset reaches. -/
inductive Fault where
  /-- Raised by `execCall` and `execRet` when `SP` is one of "the values 17 to 31 of the 5-bit register [that] are
  never reached" (R30): the slot they would use does not exist. Safe: the model stops where the spec gives nothing. -/
  | stackSlotAbsent
  deriving DecidableEq, Repr

/-- Reasons for which the model gives no meaning. -/
inductive Refusal where
  /-- Raised by an arm of `exec` whose instruction has no meaning yet; no arm does. Safe. -/
  | notModelled (mnemonic : String)
  /-- Raised by a scheduled `Reset(ROM)` whose image is longer than 3584 bytes: "the model does not define reset with a
  longer image" (93 U12, R77, D30). Safe: the spec makes the length a premise of every launch. -/
  | romTooLong (length : Nat)
  deriving DecidableEq, Repr

/-- The machine right after a reset with an empty program image (R45): every value is the spec's; the last four fields
are the model's own (log entries 3, 4, 5). `mem` lists nothing: every address reads as the reset image (R61). -/
def State.reset : State where
  v := Vector.replicate 16 0x00#8
  i := 0x0000#16
  pc := 0x0200#16
  stack := Vector.replicate 16 0x0000#16
  sp := 0#5
  dt := 0x00#8
  st := 0x00#8
  run := .running
  ir := 0x0000#16
  redraw := false
  faultCause := 0#3
  faultInstr := 0x0000#16
  faultPc := 0x0000#16
  mem := []
  fb := 0#2048
  keys := 0#16
  rnd := []
  draws := 0
  schedule := []
  frames := []

end Sys2Proof.Machine
end

