-- ==== Sys2Proof/Machine/Memory.lean ====
section
/-! DEFINITION. The memory `MEM` (spec/20_memory.md R60 to R67, R77): 4096 bytes, addresses 0x000 to 0xFFF, one byte
an address. It is held as the list of the bytes that differ from the reset image (font, then zeros). -/

namespace Sys2Proof.Machine

/-- `MEM_SIZE` (R6). -/
def memSize : Nat := 4096

/-- Glyphs 0 to 7 of the default font. PRESUMED (93 G1): unsafe, log entry 1. -/
def fontLow : List Byte :=
  [0xF0#8, 0x90#8, 0x90#8, 0x90#8, 0xF0#8, 0x20#8, 0x60#8, 0x20#8, 0x20#8, 0x70#8,
   0xF0#8, 0x10#8, 0xF0#8, 0x80#8, 0xF0#8, 0xF0#8, 0x10#8, 0xF0#8, 0x10#8, 0xF0#8,
   0x90#8, 0x90#8, 0xF0#8, 0x10#8, 0x10#8, 0xF0#8, 0x80#8, 0xF0#8, 0x10#8, 0xF0#8,
   0xF0#8, 0x80#8, 0xF0#8, 0x90#8, 0xF0#8, 0xF0#8, 0x10#8, 0x20#8, 0x40#8, 0x40#8]

/-- Glyphs 8 to F of the default font. PRESUMED (93 G1): unsafe, log entry 1. -/
def fontHigh : List Byte :=
  [0xF0#8, 0x90#8, 0xF0#8, 0x90#8, 0xF0#8, 0xF0#8, 0x90#8, 0xF0#8, 0x10#8, 0xF0#8,
   0xF0#8, 0x90#8, 0xF0#8, 0x90#8, 0x90#8, 0xE0#8, 0x90#8, 0xE0#8, 0x90#8, 0xE0#8,
   0xF0#8, 0x80#8, 0x80#8, 0x80#8, 0xF0#8, 0xE0#8, 0x90#8, 0x90#8, 0x90#8, 0xE0#8,
   0xF0#8, 0x80#8, 0xF0#8, 0x80#8, 0xF0#8, 0xF0#8, 0x80#8, 0xF0#8, 0x80#8, 0x80#8]

/-- `FONT[0..79]`, glyph `d` at `5 d` (R6, R61; the bytes are the default of 93 G1). -/
def font : List Byte := fontLow ++ fontHigh

/-- What an address the memory does not list holds: the reset image without a program, that is the font at 0x000 to
0x04F and zero above (R45, R61). -/
def Memory.unlisted (a : Nat) : Byte := font.getD a 0x00#8

/-- `MEM[a]` (R11). Reading has no side effect (R66). -/
def Memory.read (m : Memory) (a : Nat) : Byte :=
  match m with
  | [] => Memory.unlisted a
  | (b, x) :: rest => if a = b then x else Memory.read rest a

/-- `MEM[a] <- x` (R11), keeping the canonical form: a byte equal to what an unlisted address reads as is not
listed. -/
def Memory.write (m : Memory) (a : Nat) (x : Byte) : Memory :=
  match m with
  | [] => if x = Memory.unlisted a then [] else [(a, x)]
  | (b, y) :: rest =>
    if a < b then (if x = Memory.unlisted a then (b, y) :: rest else (a, x) :: (b, y) :: rest)
    else if a = b then (if x = Memory.unlisted a then rest else (a, x) :: rest)
    else (b, y) :: Memory.write rest a x

/-- `n` bytes at `a`, `a + 1`, ... in ascending order (R63). -/
def Memory.readBytes (m : Memory) (a n : Nat) : List Byte :=
  (List.range n).map fun k => m.read (a + k)

/-- Writes bytes at `a`, `a + 1`, ... in ascending order (R63). -/
def Memory.writeBytes (m : Memory) (a : Nat) (xs : List Byte) : Memory :=
  match xs with
  | [] => m
  | x :: rest => Memory.writeBytes (m.write a x) (a + 1) rest

/-- The canonical form: addresses inside `MEM`, strictly rising, and no entry equal to what an unlisted address reads
as. -/
abbrev Memory.wf (m : Memory) : Prop :=
  m.Pairwise (fun c d => c.1 < d.1) ∧ ∀ c ∈ m, c.1 < memSize ∧ c.2 ≠ Memory.unlisted c.1

/-- Bytes laid over the reset image from address `a` up, in canonical form. -/
def Memory.image (a : Nat) (xs : List Byte) : Memory :=
  match xs with
  | [] => []
  | x :: rest =>
    if x = Memory.unlisted a then Memory.image (a + 1) rest else (a, x) :: Memory.image (a + 1) rest

/-- `ROM_BASE` (R6). -/
def romBase : Nat := 0x200

/-- The memory after a reset with the program image `rom`: `ROM[j]` at `0x200 + j` (R45, R77). -/
def Memory.ofRom (rom : List Byte) : Memory := Memory.image romBase rom

end Sys2Proof.Machine
end

