-- ==== Sys2Proof/Machine/Ops.lean ====
section
/-! DEFINITION. The named operations over registers, stack, memory and framebuffer, and taking an exception
(spec/00_scope.md R9 to R12, spec/60_exceptions.md R217). Instructions are written over these. -/

namespace Sys2Proof.Machine

/-! ### Registers -/

/-- `V[x]` (R9, R21): no register is hard-wired. -/
def State.readV (s : State) (x : Nibble) : Byte := s.v[x.toNat]'x.isLt

/-- `V[x] <- b` (R9, R21). -/
def State.writeV (s : State) (x : Nibble) (b : Byte) : State := { s with v := s.v.set x.toNat b x.isLt }

/-- The number of VF, register 15 (R9, R22). -/
def vf : Nibble := 0xF#4

/-- `PC <- (PC + 2) mod 65536` (R26). -/
def State.advance (s : State) : State := { s with pc := s.pc + 2#16 }

/-- `PC <- (PC + 4) mod 65536`, stepping over one instruction (R26, R120). -/
def State.advanceSkip (s : State) : State := { s with pc := s.pc + 4#16 }

/-- A conditional skip: `PC + 4` when `cond` holds, else `PC + 2` (R26). -/
def State.skipIf (s : State) (cond : Prop) [Decidable cond] : State :=
  if cond then s.advanceSkip else s.advance

/-- `PC <- target` (R26). -/
def State.jump (s : State) (target : Word) : State := { s with pc := target }

/-- `I <- a` (R24). -/
def State.writeI (s : State) (a : Word) : State := { s with i := a }

/-! ### The other registers and the environment state, written whole -/

/-- `DT <- b` (R32). -/
def State.writeDt (s : State) (b : Byte) : State := { s with dt := b }

/-- `ST <- b` (R32). -/
def State.writeSt (s : State) (b : Byte) : State := { s with st := b }

/-- `RUN <- r` (R33). -/
def State.writeRun (s : State) (r : RunState) : State := { s with run := r }

/-- `IR <- w` (R34). -/
def State.writeIr (s : State) (w : Word) : State := { s with ir := w }

/-- `MEM` becomes `m` (R37). -/
def State.writeMem (s : State) (m : Memory) : State := { s with mem := m }

/-- `FB` becomes `fb` and `REDRAW <- 1`: both display instructions raise the flag unconditionally (R35, C6). -/
def State.showFb (s : State) (fb : Frame) : State := { s with fb := fb, redraw := true }

/-- `KEYS` becomes `keys` (R39). -/
def State.writeKeys (s : State) (keys : BitVec 16) : State := { s with keys := keys }

/-! ### Stack (R29, R30) -/

/-- `STACK[k]`. -/
def State.readSlot (s : State) (k : Nat) (h : k < 16) : Word := s.stack[k]

/-- `STACK[SP] <- a`, `SP <- SP + 1`, for `SP < 16`. -/
def State.push (s : State) (h : s.sp.toNat < 16) (a : Word) : State :=
  { s with stack := s.stack.set s.sp.toNat a h, sp := s.sp + 1#5 }

/-- `SP <- SP - 1`; the slot keeps its value (R29). -/
def State.pop (s : State) : State := { s with sp := s.sp - 1#5 }

/-! ### Taking an exception (R217) and the bounds check (R64) -/

/-- The number of a cause (R215). -/
def TrapCause.code : TrapCause → BitVec 3
  | .illegalOpcode => 1#3
  | .memoryOutOfBounds => 2#3
  | .stackOverflow => 3#3
  | .stackUnderflow => 4#3

/-- Trap entry (R217): the cause, the instruction value and `PC` are latched, the core halts, and nothing else
changes. There is no vector and no return: the only way out of `Halted` is reset (R223). -/
def State.takeTrap (s : State) (c : TrapCause) (instr : Word) : State :=
  { s with faultCause := c.code, faultInstr := instr, faultPc := s.pc, run := .halted }

/-- `raise F` inside an instruction (R12): the instruction is abandoned with no effect and trap entry runs with the
fetched word, which `IR` holds (R217). -/
def raise (c : TrapCause) (s : State) : Host.Outcome State Fault Refusal := .next (s.takeTrap c s.ir)

/-- Whether an access of `n` bytes at `a` stays inside `MEM`; the address is a natural number and never wraps, and an
access of no byte is always inside (R64). -/
def inBounds (a n : Nat) : Bool := n == 0 || a + n - 1 ≤ 0xFFF

/-! ### Framebuffer (R38, R69) -/

/-- `FbIndex(x, y)` (R11, R69). -/
def fbIndex (x y : Nat) : Nat := x % 64 + (y % 32) * 64

/-- `FB[k]`: whether pixel `k` is lit. -/
def lit (fb : Frame) (k : Nat) : Bool := fb.getLsbD k

/-- `FB[k] <- FB[k] ^ 1`. -/
def flipPixel (fb : Frame) (k : Nat) : Frame := fb ^^^ (1#2048 <<< k)

/-! ### Keys (R39, R70) -/

/-- `KEYS[k]`. -/
def keyDown (keys : BitVec 16) (k : Nibble) : Bool := keys.getLsbD k.toNat

/-- `KEYS[k] <- 1`. -/
def keySet (keys : BitVec 16) (k : Nibble) : BitVec 16 := keys ||| (1#16 <<< k.toNat)

/-- `KEYS[k] <- 0`. -/
def keyClear (keys : BitVec 16) (k : Nibble) : BitVec 16 := keys &&& ~~~(1#16 <<< k.toNat)

/-! ### Random input (R11 `RndByte`, R152, R233) -/

/-- The byte the random source presents now: the next of the supplied stream, else a free value (log entry 3). -/
def State.randomByte (s : State) : Byte :=
  match s.rnd with
  | b :: _ => b
  | [] => Config.randomByte s.draws

/-- One byte has been drawn. -/
def State.drawn (s : State) : State := { s with rnd := s.rnd.tail, draws := s.draws + 1 }

end Sys2Proof.Machine
end

