-- ==== Sys2Proof/Machine/Flags.lean ====
section
/-! DEFINITION. The values written to VF (spec/10_state.md R22, spec/41_register_alu.md R151). Every argument is an
operand as it was before the instruction (R10). -/

namespace Sys2Proof.Machine

/-- A flag as VF holds it: 0x01 or 0x00 (R22). -/
def flagByte (b : Bool) : Byte := if b then 0x01#8 else 0x00#8

/-- 8XY4: `VX + VY > 255` (R146). -/
def carryFlag (a b : Byte) : Byte := flagByte (255 < a.toNat + b.toNat)

/-- 8XY5 and 8XY7: the first operand is strictly greater (R147, R149, C3). -/
def greaterFlag (a b : Byte) : Byte := flagByte (b.toNat < a.toNat)

/-- 8XY6: the bit shifted out, `VX[0]` (R148). -/
def shrFlag (a : Byte) : Byte := a &&& 0x01#8

/-- 8XYE: the bit shifted out, `VX[7]`, as 0 or 1 when `SHL_VF_NORMALISED` holds, which it does for this hardware
(R150, C4). -/
def shlFlag (a : Byte) : Byte := if Config.shlVfNormalised then a >>> 7 else a &&& 0x80#8

/-- FX1E: `I + VX > 0xFFF`, from the unwrapped sum (R161). -/
def indexFlag (i : Word) (a : Byte) : Byte := flagByte (0xFFF < i.toNat + a.toNat)

/-- DXYN: whether a pixel of the sprite meets a lit pixel (R181). -/
def collisionFlag (fb : Frame) (pixels : List Nat) : Byte := flagByte (pixels.any fun k => lit fb k)

/-- Writes VF (R22). -/
def State.writeFlag (s : State) (f : Byte) : State := s.writeV vf f

end Sys2Proof.Machine
end

