-- ==== Sys2Proof/Machine/Operands.lean ====
section
/-! DEFINITION. The operand forms: zero-extended immediates (spec/30_encoding.md R94), the digit or key code in a
register (R70, R162), data addresses (R164), decimal digits (R163), register ranges (R165, R166) and sprites
(R181). -/

namespace Sys2Proof.Machine

/-- `zext_16(NNN)` (R94). -/
def addressOf (nnn : Imm12) : Word := nnn.setWidth 16

/-- `zext_16(VX)` (R8). -/
def zext16 (b : Byte) : Word := b.setWidth 16

/-- BNNN's target: the sum at 16 bits, reduced modulo 4096 (R128, C2). -/
def offsetTarget (v0 : Byte) (nnn : Imm12) : Word := (zext16 v0 + addressOf nnn) &&& 0x0FFF#16

/-- `VX[3:0]`: the key code (R70, R190) or the hexadecimal digit (R162) in a register. -/
def lowNibble (b : Byte) : Nibble := b.extractLsb' 0 4

/-- `zext_8(k)` of a key code (R193). -/
def keyByte (k : Nibble) : Byte := k.setWidth 8

/-- The address of glyph `d`: `5 × d` (R162). -/
def glyphAddress (d : Nibble) : Word := 5#16 * d.setWidth 16

/-- The hundreds, tens and ones digits of a byte, each in its own byte (R163). -/
def decimalDigits (b : Byte) : List Byte :=
  [BitVec.ofNat 8 (b.toNat / 100), BitVec.ofNat 8 (b.toNat / 10 % 10), BitVec.ofNat 8 (b.toNat % 10)]

/-- The address of a data access: the natural number `I` (R164); element `k` is at `I + k`. -/
def State.dataAddress (s : State) : Nat := s.i.toNat

/-- How many registers `V0..VX` names: `X + 1`, the range includes `VX` (R165). -/
def regCount (x : Nibble) : Nat := x.toNat + 1

/-- `V0`, ..., `VX` in ascending order (R165). -/
def State.regRange (s : State) (x : Nibble) : List Byte :=
  (List.range (regCount x)).map fun k => s.readV (BitVec.ofNat 4 k)

/-- `V[k]`, `V[k + 1]`, ... take the given bytes in order (R166). -/
def State.writeRegs (s : State) (k : Nat) (xs : List Byte) : State :=
  match xs with
  | [] => s
  | b :: rest => State.writeRegs (s.writeV (BitVec.ofNat 4 k) b) (k + 1) rest

/-- The pixels of one sprite row drawn at column `x`, row `y`: bit 7 of the byte is the leftmost pixel (R181). -/
def rowPixels (x y : Nat) (row : Byte) : List Nat :=
  ((List.range 8).filter fun c => row.getLsbD (7 - c)).map fun c => fbIndex (x + c) y

/-- The framebuffer indices of the 1 bits of a sprite whose top-left pixel is `(x, y)`, row by row downwards (R181). -/
def spritePixels (x y : Nat) (rows : List Byte) : List Nat :=
  match rows with
  | [] => []
  | row :: rest => rowPixels x y row ++ spritePixels x (y + 1) rest

end Sys2Proof.Machine
end

