-- ==== Sys2Proof/Machine/Alu.lean ====
section
/-! DEFINITION. Register load, arithmetic, logic, shift and random instructions (spec/41_register_alu.md R140 to R152).
Operands are those before the instruction; the writes stand in the order of the rule, so that the later one wins when
both name VF (R10, D11). -/

namespace Sys2Proof.Machine

/-- 6XNN (R140). -/
def execLdNn (x : Nibble) (nn : Byte) (s : State) : Host.Outcome State Fault Refusal :=
  .next (s.writeV x nn).advance

/-- 7XNN (R141): no carry flag. -/
def execAddNn (x : Nibble) (nn : Byte) (s : State) : Host.Outcome State Fault Refusal :=
  .next (s.writeV x (s.readV x + nn)).advance

/-- 8XY0 (R142). -/
def execLdVy (x y : Nibble) (s : State) : Host.Outcome State Fault Refusal :=
  .next (s.writeV x (s.readV y)).advance

/-- 8XY1 (R143). -/
def execOr (x y : Nibble) (s : State) : Host.Outcome State Fault Refusal :=
  .next (s.writeV x (s.readV x ||| s.readV y)).advance

/-- 8XY2 (R144). -/
def execAnd (x y : Nibble) (s : State) : Host.Outcome State Fault Refusal :=
  .next (s.writeV x (s.readV x &&& s.readV y)).advance

/-- 8XY3 (R145). -/
def execXor (x y : Nibble) (s : State) : Host.Outcome State Fault Refusal :=
  .next (s.writeV x (s.readV x ^^^ s.readV y)).advance

/-- 8XY4 (R146): the sum, then the carry. -/
def execAddVy (x y : Nibble) (s : State) : Host.Outcome State Fault Refusal :=
  .next ((s.writeV x (s.readV x + s.readV y)).writeFlag (carryFlag (s.readV x) (s.readV y))).advance

/-- 8XY5 (R147): the difference, then the flag. -/
def execSub (x y : Nibble) (s : State) : Host.Outcome State Fault Refusal :=
  .next ((s.writeV x (s.readV x - s.readV y)).writeFlag (greaterFlag (s.readV x) (s.readV y))).advance

/-- 8XY6 (R148): the flag, then the shifted value; `Y` is ignored (R102). -/
def execShr (x _y : Nibble) (s : State) : Host.Outcome State Fault Refusal :=
  .next ((s.writeFlag (shrFlag (s.readV x))).writeV x (s.readV x >>> 1)).advance

/-- 8XY7 (R149): the difference, then the flag. -/
def execSubn (x y : Nibble) (s : State) : Host.Outcome State Fault Refusal :=
  .next ((s.writeV x (s.readV y - s.readV x)).writeFlag (greaterFlag (s.readV y) (s.readV x))).advance

/-- 8XYE (R150): the flag, then the shifted value; `Y` is ignored (R102). -/
def execShl (x _y : Nibble) (s : State) : Host.Outcome State Fault Refusal :=
  .next ((s.writeFlag (shlFlag (s.readV x))).writeV x (s.readV x <<< 1)).advance

/-- CXNN (R152): one byte is drawn. -/
def execRnd (x : Nibble) (nn : Byte) (s : State) : Host.Outcome State Fault Refusal :=
  .next (s.drawn.writeV x (s.randomByte &&& nn)).advance

end Sys2Proof.Machine
end

