-- ==== Sys2Proof/Machine/ControlFlow.lean ====
section
/-! DEFINITION. Control transfer (spec/40_control_flow.md R120 to R128). `PC` on a right-hand side is the address of
the instruction being executed (R25); targets are not checked when written (R120). -/

namespace Sys2Proof.Machine

/-- 00EE (R121). `SP` above 16 is not a state of the machine (R30); the model stops there (log entry 7). -/
def execRet (s : State) : Host.Outcome State Fault Refusal :=
  if s.sp = 0#5 then raise .stackUnderflow s
  else if h : s.sp.toNat - 1 < 16 then .next (s.pop.jump (s.readSlot (s.sp.toNat - 1) h + 2#16))
  else .fault .stackSlotAbsent

/-- 1NNN (R122). -/
def execJp (nnn : Imm12) (s : State) : Host.Outcome State Fault Refusal := .next (s.jump (addressOf nnn))

/-- 2NNN (R123): the call-site address is pushed, not `PC + 2` (R29, C5). `SP` above 16 as in `execRet`. -/
def execCall (nnn : Imm12) (s : State) : Host.Outcome State Fault Refusal :=
  if s.sp = 16#5 then raise .stackOverflow s
  else if h : s.sp.toNat < 16 then .next ((s.push h s.pc).jump (addressOf nnn))
  else .fault .stackSlotAbsent

/-- 3XNN (R124). -/
def execSeNn (x : Nibble) (nn : Byte) (s : State) : Host.Outcome State Fault Refusal :=
  .next (s.skipIf (s.readV x = nn))

/-- 4XNN (R125). -/
def execSneNn (x : Nibble) (nn : Byte) (s : State) : Host.Outcome State Fault Refusal :=
  .next (s.skipIf (s.readV x ≠ nn))

/-- 5XY0 (R126). -/
def execSeVy (x y : Nibble) (s : State) : Host.Outcome State Fault Refusal :=
  .next (s.skipIf (s.readV x = s.readV y))

/-- 9XY0 (R127). -/
def execSneVy (x y : Nibble) (s : State) : Host.Outcome State Fault Refusal :=
  .next (s.skipIf (s.readV x ≠ s.readV y))

/-- BNNN (R128): always `V0`. -/
def execJpV0 (nnn : Imm12) (s : State) : Host.Outcome State Fault Refusal :=
  .next (s.jump (offsetTarget (s.readV 0x0#4) nnn))

end Sys2Proof.Machine
end

