-- ==== Sys2Proof/Machine/Display.lean ====
section
/-! DEFINITION. Display instructions (spec/43_display.md R180 to R182). -/

namespace Sys2Proof.Machine

/-- 00E0 (R180): `REDRAW` is set whether or not a pixel changed (C6). -/
def execCls (s : State) : Host.Outcome State Fault Refusal :=
  .next (s.showFb 0#2048).advance

/-- The pixels the sprite at `I` of `n` rows sets, drawn at `(VX, VY)` (R181). -/
def State.spriteOf (s : State) (x y n : Nibble) : List Nat :=
  spritePixels (s.readV x).toNat (s.readV y).toNat (s.mem.readBytes s.dataAddress n.toNat)

/-- DXYN (R181): every 1 bit of the sprite flips its pixel; VF tells whether one of them was lit before. No two bits
share a pixel (R182), so the order of the flips does not matter. -/
def execDrw (x y n : Nibble) (s : State) : Host.Outcome State Fault Refusal :=
  if inBounds s.dataAddress n.toNat then
    .next ((s.showFb ((s.spriteOf x y n).foldl flipPixel s.fb)).writeFlag
      (collisionFlag s.fb (s.spriteOf x y n))).advance
  else raise .memoryOutOfBounds s

end Sys2Proof.Machine
end

