-- ==== Sys2Proof/Machine/IndexMemory.lean ====
section
/-! DEFINITION. Index register and memory instructions (spec/42_index_memory.md R160 to R166). The whole range an
instruction will touch is checked before any byte is moved (R64, R164). -/

namespace Sys2Proof.Machine

/-- ANNN (R160). -/
def execLdI (nnn : Imm12) (s : State) : Host.Outcome State Fault Refusal :=
  .next (s.writeI (addressOf nnn)).advance

/-- FX1E (R161): `I` wraps at 65536 only; VF from the unwrapped sum. -/
def execAddI (x : Nibble) (s : State) : Host.Outcome State Fault Refusal :=
  .next ((s.writeI (s.i + zext16 (s.readV x))).writeFlag (indexFlag s.i (s.readV x))).advance

/-- FX29 (R162). -/
def execLdF (x : Nibble) (s : State) : Host.Outcome State Fault Refusal :=
  .next (s.writeI (glyphAddress (lowNibble (s.readV x)))).advance

/-- The bytes `xs` stored at `I`, `I + 1`, ... if all of them lie in `MEM` (R11 `MemWrite`, R64); shared by FX33 and
FX55. -/
def State.storeAtI (s : State) (xs : List Byte) : Host.Outcome State Fault Refusal :=
  if inBounds s.dataAddress xs.length then
    .next (s.writeMem (s.mem.writeBytes s.dataAddress xs)).advance
  else raise .memoryOutOfBounds s

/-- FX33 (R163). -/
def execLdB (x : Nibble) (s : State) : Host.Outcome State Fault Refusal :=
  s.storeAtI (decimalDigits (s.readV x))

/-- FX55 (R165): `I` is unchanged. -/
def execStRegs (x : Nibble) (s : State) : Host.Outcome State Fault Refusal :=
  s.storeAtI (s.regRange x)

/-- FX65 (R166): `I` is unchanged. -/
def execLdRegs (x : Nibble) (s : State) : Host.Outcome State Fault Refusal :=
  if inBounds s.dataAddress (regCount x) then
    .next (s.writeRegs 0 (s.mem.readBytes s.dataAddress (regCount x))).advance
  else raise .memoryOutOfBounds s

end Sys2Proof.Machine
end

