-- ==== Sys2Proof/Machine/Keypad.lean ====
section
/-! DEFINITION. Keypad instructions (spec/44_keypad.md R190 to R192). The completion of FX0A is a `Press` event and
stands in Machine/Events.lean (R193). -/

namespace Sys2Proof.Machine

/-- The state after an instruction has tested key `k`: a press it sees is consumed (R190, R191). -/
def State.consumeKey (s : State) (k : Nibble) : State :=
  if keyDown s.keys k then s.writeKeys (keyClear s.keys k) else s

/-- EX9E (R190). -/
def execSkp (x : Nibble) (s : State) : Host.Outcome State Fault Refusal :=
  .next ((s.consumeKey (lowNibble (s.readV x))).skipIf (keyDown s.keys (lowNibble (s.readV x)) = true))

/-- EXA1 (R191): it consumes a press it sees as well. -/
def execSknp (x : Nibble) (s : State) : Host.Outcome State Fault Refusal :=
  .next ((s.consumeKey (lowNibble (s.readV x))).skipIf (keyDown s.keys (lowNibble (s.readV x)) = false))

/-- FX0A, entry (R192): the core waits; `IR` keeps the word, and with it `X`; nothing else changes, keys already down
included. -/
def execLdVxK (_x : Nibble) (s : State) : Host.Outcome State Fault Refusal :=
  .next (s.writeRun .awaitKey)

end Sys2Proof.Machine
end

