-- ==== Sys2Proof/Machine/Timer.lean ====
section
/-! DEFINITION. Timer access (spec/45_timer.md R200 to R202). The decrement is an event (R225), in
Machine/Events.lean. -/

namespace Sys2Proof.Machine

/-- FX07 (R200). -/
def execLdVxDt (x : Nibble) (s : State) : Host.Outcome State Fault Refusal := .next (s.writeV x s.dt).advance

/-- FX15 (R201). -/
def execLdDtVx (x : Nibble) (s : State) : Host.Outcome State Fault Refusal :=
  .next (s.writeDt (s.readV x)).advance

/-- FX18 (R202). -/
def execLdStVx (x : Nibble) (s : State) : Host.Outcome State Fault Refusal :=
  .next (s.writeSt (s.readV x)).advance

end Sys2Proof.Machine
end

