-- ==== Sys2Proof/WellFormed.lean ====
section
/-! DEFINITION. Which terms the spec admits: instructions (every one, by the widths of their fields) and program
images (R77: at most 3584 bytes). -/

namespace Sys2Proof

/-- Every operand field of `Instr` has exactly the width the encoding gives it, and "every value 0 to 15 is a legal
register number in every instruction" (R94), so there is no ill-formed instruction term: the types alone refuse one.
One arm per constructor, so that a field of another type would have to be looked at here. -/
def Instr.wellFormed : Instr → Bool
  | .cls | .ret => true
  | .jp _ | .call _ | .ldI _ | .jpV0 _ => true
  | .seNn _ _ | .sneNn _ _ | .ldNn _ _ | .addNn _ _ | .rnd _ _ => true
  | .seVy _ _ | .ldVy _ _ | .or _ _ | .and _ _ | .xor _ _ | .addVy _ _ | .sub _ _ | .shr _ _ | .subn _ _
  | .shl _ _ | .sneVy _ _ => true
  | .drw _ _ _ => true
  | .skp _ | .sknp _ | .ldVxDt _ | .ldVxK _ | .ldDtVx _ | .ldStVx _ | .addI _ | .ldF _ | .ldB _ | .stRegs _
  | .ldRegs _ => true

/-- `ROM_MAX` = 4096 − 512 bytes (R6, R77). -/
def romMax : Nat := 3584

/-- A program image a launch may use: `len ≤ ROM_MAX` (R77, D30). -/
def romWellFormed (rom : List Byte) : Bool := rom.length ≤ romMax

end Sys2Proof
end

