-- ==== Sys2Proof/Decode.lean ====
section
/-! DEFINITION. The decoder and the encoder (spec/30_encoding.md R90 to R97, R101 to R103), and the opcode table of
R96 as data. The decoder branches by family as R97 does; the table is the independent reading it is held against. -/

namespace Sys2Proof

/-- Why bytes are not an instruction. -/
inductive DecodeError where
  /-- Fewer than the two bytes every instruction occupies (R90). -/
  | truncated
  /-- The word matches no row of the opcode table (R101). -/
  | illegalWord (w : Word)
  deriving DecidableEq, Repr

/-! ### The fields of an instruction word (R92) -/

/-- `OP`, bits 15:12. -/
def opField (w : Word) : Nibble := w.extractLsb' 12 4
/-- `X`, bits 11:8. -/
def xField (w : Word) : Nibble := w.extractLsb' 8 4
/-- `Y`, bits 7:4. -/
def yField (w : Word) : Nibble := w.extractLsb' 4 4
/-- `N`, bits 3:0. -/
def nField (w : Word) : Nibble := w.extractLsb' 0 4
/-- `NN`, bits 7:0. -/
def nnField (w : Word) : Byte := w.extractLsb' 0 8
/-- `NNN`, bits 11:0. -/
def nnnField (w : Word) : Imm12 := w.extractLsb' 0 12

/-- The word whose byte at the lower address is `hi` (R62: big-endian). -/
def wordOfBytes (hi lo : Byte) : Word := hi ++ lo
/-- Bits 15:8 of a word, the byte at the lower address (R62). -/
def highByte (w : Word) : Byte := w.extractLsb' 8 8
/-- Bits 7:0 of a word, the byte at the higher address (R62). -/
def lowByte (w : Word) : Byte := w.extractLsb' 0 8

/-! ### The decoder (R95, R97) -/

/-- Family 0: the whole word selects. -/
def decodeFamily0 (w : Word) : Except DecodeError Instr :=
  if w = 0x00E0#16 then .ok .cls
  else if w = 0x00EE#16 then .ok .ret
  else .error (.illegalWord w)

/-- Family 5: `N = 0`. -/
def decodeFamily5 (w : Word) : Except DecodeError Instr :=
  if nField w = 0x0#4 then .ok (.seVy (xField w) (yField w)) else .error (.illegalWord w)

/-- Family 8: `N` in 0 to 7 or E. -/
def decodeFamily8 (w : Word) : Except DecodeError Instr :=
  match (nField w).toNat with
  | 0x0 => .ok (.ldVy (xField w) (yField w))
  | 0x1 => .ok (.or (xField w) (yField w))
  | 0x2 => .ok (.and (xField w) (yField w))
  | 0x3 => .ok (.xor (xField w) (yField w))
  | 0x4 => .ok (.addVy (xField w) (yField w))
  | 0x5 => .ok (.sub (xField w) (yField w))
  | 0x6 => .ok (.shr (xField w) (yField w))
  | 0x7 => .ok (.subn (xField w) (yField w))
  | 0xE => .ok (.shl (xField w) (yField w))
  | _ => .error (.illegalWord w)

/-- Family 9: `N = 0`. -/
def decodeFamily9 (w : Word) : Except DecodeError Instr :=
  if nField w = 0x0#4 then .ok (.sneVy (xField w) (yField w)) else .error (.illegalWord w)

/-- Family E: `NN` is 9E or A1. -/
def decodeFamilyE (w : Word) : Except DecodeError Instr :=
  if nnField w = 0x9E#8 then .ok (.skp (xField w))
  else if nnField w = 0xA1#8 then .ok (.sknp (xField w))
  else .error (.illegalWord w)

/-- Family F: `NN` is one of nine values. -/
def decodeFamilyF (w : Word) : Except DecodeError Instr :=
  match (nnField w).toNat with
  | 0x07 => .ok (.ldVxDt (xField w))
  | 0x0A => .ok (.ldVxK (xField w))
  | 0x15 => .ok (.ldDtVx (xField w))
  | 0x18 => .ok (.ldStVx (xField w))
  | 0x1E => .ok (.addI (xField w))
  | 0x29 => .ok (.ldF (xField w))
  | 0x33 => .ok (.ldB (xField w))
  | 0x55 => .ok (.stRegs (xField w))
  | 0x65 => .ok (.ldRegs (xField w))
  | _ => .error (.illegalWord w)

/-- The decoder: a total function from the 65536 words to the 34 instructions or a rejection that names the word
(R95, R97, R101). -/
def decodeWord (w : Word) : Except DecodeError Instr :=
  match (opField w).toNat with
  | 0x0 => decodeFamily0 w
  | 0x1 => .ok (.jp (nnnField w))
  | 0x2 => .ok (.call (nnnField w))
  | 0x3 => .ok (.seNn (xField w) (nnField w))
  | 0x4 => .ok (.sneNn (xField w) (nnField w))
  | 0x5 => decodeFamily5 w
  | 0x6 => .ok (.ldNn (xField w) (nnField w))
  | 0x7 => .ok (.addNn (xField w) (nnField w))
  | 0x8 => decodeFamily8 w
  | 0x9 => decodeFamily9 w
  | 0xA => .ok (.ldI (nnnField w))
  | 0xB => .ok (.jpV0 (nnnField w))
  | 0xC => .ok (.rnd (xField w) (nnField w))
  | 0xD => .ok (.drw (xField w) (yField w) (nField w))
  | 0xE => decodeFamilyE w
  | 0xF => decodeFamilyF w
  | _ => .error (.illegalWord w)

/-- Decoding at the head of a byte sequence: the instruction and the bytes after it (R90: always two bytes, the
first more significant). -/
def decode : List Byte → Except DecodeError (Instr × List Byte)
  | hi :: lo :: rest =>
    match decodeWord (wordOfBytes hi lo) with
    | .ok i => .ok (i, rest)
    | .error e => .error e
  | _ => .error .truncated

/-! ### The encoder (R93) -/

/-- Format A: `OP`, `NNN`. -/
def packA (op : Nibble) (nnn : Imm12) : Word := op ++ nnn
/-- Formats I and S: `OP`, `X`, `NN`. -/
def packI (op x : Nibble) (nn : Byte) : Word := op ++ x ++ nn
/-- Formats R and D: `OP`, `X`, `Y`, `N`. -/
def packR (op x y n : Nibble) : Word := op ++ x ++ y ++ n

/-- The word of an instruction (R93, R96). -/
def encode : Instr → Word
  | .cls => 0x00E0#16
  | .ret => 0x00EE#16
  | .jp nnn => packA 0x1#4 nnn
  | .call nnn => packA 0x2#4 nnn
  | .seNn x nn => packI 0x3#4 x nn
  | .sneNn x nn => packI 0x4#4 x nn
  | .seVy x y => packR 0x5#4 x y 0x0#4
  | .ldNn x nn => packI 0x6#4 x nn
  | .addNn x nn => packI 0x7#4 x nn
  | .ldVy x y => packR 0x8#4 x y 0x0#4
  | .or x y => packR 0x8#4 x y 0x1#4
  | .and x y => packR 0x8#4 x y 0x2#4
  | .xor x y => packR 0x8#4 x y 0x3#4
  | .addVy x y => packR 0x8#4 x y 0x4#4
  | .sub x y => packR 0x8#4 x y 0x5#4
  | .shr x y => packR 0x8#4 x y 0x6#4
  | .subn x y => packR 0x8#4 x y 0x7#4
  | .shl x y => packR 0x8#4 x y 0xE#4
  | .sneVy x y => packR 0x9#4 x y 0x0#4
  | .ldI nnn => packA 0xA#4 nnn
  | .jpV0 nnn => packA 0xB#4 nnn
  | .rnd x nn => packI 0xC#4 x nn
  | .drw x y n => packR 0xD#4 x y n
  | .skp x => packI 0xE#4 x 0x9E#8
  | .sknp x => packI 0xE#4 x 0xA1#8
  | .ldVxDt x => packI 0xF#4 x 0x07#8
  | .ldVxK x => packI 0xF#4 x 0x0A#8
  | .ldDtVx x => packI 0xF#4 x 0x15#8
  | .ldStVx x => packI 0xF#4 x 0x18#8
  | .addI x => packI 0xF#4 x 0x1E#8
  | .ldF x => packI 0xF#4 x 0x29#8
  | .ldB x => packI 0xF#4 x 0x33#8
  | .stRegs x => packI 0xF#4 x 0x55#8
  | .ldRegs x => packI 0xF#4 x 0x65#8

/-- The two bytes of an instruction as memory holds them (R62, R90). -/
def encodeBytes (i : Instr) : List Byte := [highByte (encode i), lowByte (encode i)]

/-! ### The opcode table as data (R96) -/

/-- A row of R96: `w` is the row's instruction when `w & mask = bits`. -/
structure OpcodeRow where
  /-- the spec's mnemonic (R105) -/
  mnemonic : String
  /-- which bits the instruction fixes -/
  mask : Word
  /-- their values (the table's `match`) -/
  bits : Word
  deriving DecidableEq, Repr

/-- `w & mask = match` (R95). -/
def OpcodeRow.selects (r : OpcodeRow) (w : Word) : Bool := w &&& r.mask == r.bits

/-- The row of each instruction. -/
def rowOf : Instr → OpcodeRow
  | .cls => ⟨"CLS", 0xFFFF#16, 0x00E0#16⟩
  | .ret => ⟨"RET", 0xFFFF#16, 0x00EE#16⟩
  | .jp _ => ⟨"JP", 0xF000#16, 0x1000#16⟩
  | .call _ => ⟨"CALL", 0xF000#16, 0x2000#16⟩
  | .seNn _ _ => ⟨"SE_NN", 0xF000#16, 0x3000#16⟩
  | .sneNn _ _ => ⟨"SNE_NN", 0xF000#16, 0x4000#16⟩
  | .seVy _ _ => ⟨"SE_VY", 0xF00F#16, 0x5000#16⟩
  | .ldNn _ _ => ⟨"LD_NN", 0xF000#16, 0x6000#16⟩
  | .addNn _ _ => ⟨"ADD_NN", 0xF000#16, 0x7000#16⟩
  | .ldVy _ _ => ⟨"LD_VY", 0xF00F#16, 0x8000#16⟩
  | .or _ _ => ⟨"OR", 0xF00F#16, 0x8001#16⟩
  | .and _ _ => ⟨"AND", 0xF00F#16, 0x8002#16⟩
  | .xor _ _ => ⟨"XOR", 0xF00F#16, 0x8003#16⟩
  | .addVy _ _ => ⟨"ADD_VY", 0xF00F#16, 0x8004#16⟩
  | .sub _ _ => ⟨"SUB", 0xF00F#16, 0x8005#16⟩
  | .shr _ _ => ⟨"SHR", 0xF00F#16, 0x8006#16⟩
  | .subn _ _ => ⟨"SUBN", 0xF00F#16, 0x8007#16⟩
  | .shl _ _ => ⟨"SHL", 0xF00F#16, 0x800E#16⟩
  | .sneVy _ _ => ⟨"SNE_VY", 0xF00F#16, 0x9000#16⟩
  | .ldI _ => ⟨"LD_I", 0xF000#16, 0xA000#16⟩
  | .jpV0 _ => ⟨"JP_V0", 0xF000#16, 0xB000#16⟩
  | .rnd _ _ => ⟨"RND", 0xF000#16, 0xC000#16⟩
  | .drw _ _ _ => ⟨"DRW", 0xF000#16, 0xD000#16⟩
  | .skp _ => ⟨"SKP", 0xF0FF#16, 0xE09E#16⟩
  | .sknp _ => ⟨"SKNP", 0xF0FF#16, 0xE0A1#16⟩
  | .ldVxDt _ => ⟨"LD_VX_DT", 0xF0FF#16, 0xF007#16⟩
  | .ldVxK _ => ⟨"LD_VX_K", 0xF0FF#16, 0xF00A#16⟩
  | .ldDtVx _ => ⟨"LD_DT_VX", 0xF0FF#16, 0xF015#16⟩
  | .ldStVx _ => ⟨"LD_ST_VX", 0xF0FF#16, 0xF018#16⟩
  | .addI _ => ⟨"ADD_I", 0xF0FF#16, 0xF01E#16⟩
  | .ldF _ => ⟨"LD_F", 0xF0FF#16, 0xF029#16⟩
  | .ldB _ => ⟨"LD_B", 0xF0FF#16, 0xF033#16⟩
  | .stRegs _ => ⟨"ST_REGS", 0xF0FF#16, 0xF055#16⟩
  | .ldRegs _ => ⟨"LD_REGS", 0xF0FF#16, 0xF065#16⟩

/-- Rows of families 0 to 7. -/
def opcodeTableLow : List OpcodeRow :=
  [rowOf .cls, rowOf .ret, rowOf (.jp 0), rowOf (.call 0), rowOf (.seNn 0 0), rowOf (.sneNn 0 0), rowOf (.seVy 0 0),
   rowOf (.ldNn 0 0), rowOf (.addNn 0 0)]

/-- Rows of families 8 and 9. -/
def opcodeTableMid : List OpcodeRow :=
  [rowOf (.ldVy 0 0), rowOf (.or 0 0), rowOf (.and 0 0), rowOf (.xor 0 0), rowOf (.addVy 0 0), rowOf (.sub 0 0),
   rowOf (.shr 0 0), rowOf (.subn 0 0), rowOf (.shl 0 0), rowOf (.sneVy 0 0)]

/-- Rows of families A to F. -/
def opcodeTableHigh : List OpcodeRow :=
  [rowOf (.ldI 0), rowOf (.jpV0 0), rowOf (.rnd 0 0), rowOf (.drw 0 0 0), rowOf (.skp 0), rowOf (.sknp 0),
   rowOf (.ldVxDt 0), rowOf (.ldVxK 0), rowOf (.ldDtVx 0), rowOf (.ldStVx 0), rowOf (.addI 0), rowOf (.ldF 0),
   rowOf (.ldB 0), rowOf (.stRegs 0), rowOf (.ldRegs 0)]

/-- The 34 rows of R96 in the table's order. -/
def opcodeTable : List OpcodeRow := opcodeTableLow ++ opcodeTableMid ++ opcodeTableHigh

/-! ### The host's question: one word of the opcode table -/

/-- The bytes of an instruction whose bits are `w`, numbered as spec/opcode_table.json numbers them, of which the
table gives the low `nbits`: every instruction is one 16-bit word (R90), so bits above bit 15 do not exist and bits
above `nbits` are 0. Memory holds the more significant byte first (R62). -/
def tableWordBytes (nbits w : Nat) : List Byte :=
  let word := BitVec.ofNat 16 (w % 2 ^ nbits)
  [highByte word, lowByte word]

/-- The instruction this decoder reads from such a word. -/
def decodeTableWord (nbits w : Nat) : Option Instr :=
  match decode (tableWordBytes nbits w) with
  | .ok (i, _) => some i
  | .error _ => none

end Sys2Proof
end

