-- ==== Sys2Proof/Machine/Events.lean ====
section
/-! DEFINITION. The steps of the agents outside the core (spec/60_exceptions.md R211, R222, R225 to R228,
spec/44_keypad.md R193, spec/70_reset_and_hazards.md R260) and what the core shows outside (spec/10_state.md R41). -/

namespace Sys2Proof.Machine

/-! ### Timer tick (R225, R227) -/

/-- One decrement, floored at 0 (R225). -/
def decrement (b : Byte) : Byte := if b = 0x00#8 then 0x00#8 else b - 1#8

/-- Both timers decremented (R225). -/
def State.decTimers (s : State) : State := (s.writeDt (decrement s.dt)).writeSt (decrement s.st)

/-- `TimerTick`: enabled when `RUN ≠ Halted` (R225, R227). -/
def State.timerTick (s : State) : State := if s.run = .halted then s else s.decTimers

/-! ### Key events (R228, R193) -/

/-- FX0A completes with key `k`: the register named by bits 11:8 of `IR` takes the key code (R193). -/
def State.completeKeyWait (s : State) (k : Nibble) : State :=
  (s.writeV (xField s.ir) (keyByte k)).advance.writeRun .running

/-- `Press(k)`: the key is marked pressed and, while the core waits, FX0A completes; the press is not consumed
(R228, R193). -/
def State.press (s : State) (k : Nibble) : State :=
  if s.run = .awaitKey then (s.writeKeys (keySet s.keys k)).completeKeyWait k
  else s.writeKeys (keySet s.keys k)

/-- `Release(k)` (R228). -/
def State.release (s : State) (k : Nibble) : State := s.writeKeys (keyClear s.keys k)

/-! ### Stop (R222) -/

/-- `Stop`: the core halts with no fault cause (R222). -/
def State.stop (s : State) : State := if s.run = .halted then s else s.writeRun .halted

/-! ### Reset (R260, R45) -/

/-- The machine right after `Reset(ROM)` (R45, R260). -/
def State.ofRom (rom : List Byte) : State := { State.reset with mem := Memory.ofRom rom }

/-- `Reset(ROM)` from any state (R260): every piece of state of R20 takes its reset value. The model's own four fields
belong to the agents outside, not to the machine, and go on (log entries 3, 4, 5). An image longer than 3584 bytes is
outside the model (R77, D30, 93 U12). -/
def State.resetWith (s : State) (rom : List Byte) : Host.Outcome State Fault Refusal :=
  if romWellFormed rom then
    .next { State.ofRom rom with rnd := s.rnd, draws := s.draws, schedule := s.schedule, frames := s.frames }
  else .refused (.romTooLong rom.length)

/-! ### Outputs (R41) -/

/-- The encoding of `RUN` (R33). -/
def RunState.code : RunState → BitVec 2
  | .running => 0#2
  | .awaitKey => 1#2
  | .halted => 2#2

/-- What is visible outside the core at all times (R41, R42); the frame events stand in `State.frames`. -/
structure Outputs where
  /-- the sound-timer value (R235) -/
  stValue : Byte
  /-- `RUN = Halted` (R33) -/
  halted : Bool
  faultCause : BitVec 3
  faultInstr : Word
  faultPc : Word
  deriving DecidableEq, Repr

/-- The output ports that carry state (R41, R42). -/
def State.outputs (s : State) : Outputs where
  stValue := s.st
  halted := s.run == .halted
  faultCause := s.faultCause
  faultInstr := s.faultInstr
  faultPc := s.faultPc

end Sys2Proof.Machine
end

