-- ==== Sys2Proof/Machine/Sequencer.lean ====
section
/-! DEFINITION. The `fetch_execute_sequencer` (spec/60_exceptions.md R210 to R217, R232): fetch, decode, execute,
render; and which step of the machine comes next. -/

namespace Sys2Proof.Machine

/-- Fetch (R91): the word at `PC`, or none when a byte of it lies above 0xFFF. `PC` need not be even (R27). -/
def State.fetch (s : State) : Option Word :=
  if 0xFFE < s.pc.toNat then none
  else some (wordOfBytes (s.mem.read s.pc.toNat) (s.mem.read (s.pc.toNat + 1)))

/-- The render phase (R232): if `REDRAW` is set, a frame event is emitted and the flag cleared. -/
def State.render (s : State) : State :=
  if s.redraw then { s with frames := s.frames ++ [s.fb], redraw := false } else s

/-- The end of an instruction step: the render phase, which a fault skips (R210, R217). An instruction leaves
`RUN = Halted` exactly when it raised. -/
def State.finish (s : State) : State := if s.run = .halted then s else s.render

/-- Execute and render (R210, 3 and 4). -/
def executeAndRender (i : Instr) (s : State) : Host.Outcome State Fault Refusal :=
  match exec i s with
  | .next t => .next t.finish
  | .fault r => .fault r
  | .refused r => .refused r

/-- Decode, execute, render, once `IR` holds the fetched word `w` (R210, 2 to 4; R101). -/
def runWord (w : Word) (s : State) : Host.Outcome State Fault Refusal :=
  match decodeWord w with
  | .ok i => executeAndRender i s
  | .error _ => .next (s.takeTrap .illegalOpcode w)

/-- `InstructionStep` (R210), enabled exactly when `RUN = Running`. When it is not enabled the core does nothing
(R194, R211, R212; log entry 8). A fetch fault latches 0x0000 as the instruction value (R91, R215). -/
def instructionStep (s : State) : Host.Outcome State Fault Refusal :=
  if s.run = .running then
    match s.fetch with
    | none => .next (s.takeTrap .memoryOutOfBounds 0x0000#16)
    | some w => runWord w (s.writeIr w)
  else .next s

/-- One step of the whole machine (R211). -/
def machineStep (e : MachineStep) (s : State) : Host.Outcome State Fault Refusal :=
  match e with
  | .instruction => instructionStep s
  | .timerTick => .next s.timerTick
  | .press k => .next (s.press k)
  | .release k => .next (s.release k)
  | .stop => .next s.stop
  | .reset rom => s.resetWith rom

/-- The step that comes next in the interleaving: the first of the schedule, else an instruction step of the core
(R71, R211; log entry 4). -/
def nextStep (s : State) : Host.Outcome State Fault Refusal :=
  match s.schedule with
  | [] => instructionStep s
  | e :: rest => machineStep e { s with schedule := rest }

/-- The machine with `xs` stored at `PC` (as far as `MEM` reaches) and the core about to fetch there: running, and no
other agent's step scheduled before the instruction step. -/
def State.placeAtPc (s : State) (xs : List Byte) : State :=
  { s with
    mem := if inBounds s.pc.toNat xs.length then s.mem.writeBytes s.pc.toNat xs else s.mem
    run := .running
    schedule := match s.schedule with
      | [] => []
      | l => .instruction :: l }

end Sys2Proof.Machine
end

