-- ==== Sys2Proof/Machine/Step.lean ====
section
/-! DEFINITION. The step function of the machine and the host's placing of one instruction. -/

namespace Sys2Proof.Machine

/-- One atomic step of the machine (spec/60_exceptions.md R210, R211). -/
def step (s : State) : Host.Outcome State Fault Refusal := nextStep s

/-- `s` with the instruction whose bits are `w` where `step` fetches next. -/
def State.withFetchWord (s : State) (nbits w : Nat) : State := s.placeAtPc (tableWordBytes nbits w)

end Sys2Proof.Machine
end

