-- ==== Sys2Proof/Safety.lean ====
section
/-! DEFINITION. The terms claims about the machine are stated in: where the state has a place (`Loc`), what an
instruction may write (spec/10_state.md R23), when it raises (spec/60_exceptions.md R216), which instruction a step
executes, the invariant of every reachable state, and how a run can end (R218, R222, R244). -/

namespace Sys2Proof.Machine

/-! ### Places of the state -/

/-- One place of the state: every piece of R20 apart, memory by byte, the framebuffer by pixel, the key table by key,
the stack by slot; the last four are the model's own fields. -/
inductive Loc where
  | v (x : Nibble)
  | i
  | pc
  | slot (k : Fin 16)
  | sp
  | dt
  | st
  | run
  | ir
  | redraw
  | faultCause
  | faultInstr
  | faultPc
  | mem (a : Nat)
  | pixel (k : Nat)
  | key (k : Nibble)
  | rnd
  | draws
  | schedule
  | frames
  deriving DecidableEq, Repr

/-- The place holds the same in `s` and `t`; memory through the model's read of one byte. -/
def Loc.same (l : Loc) (s t : State) : Prop :=
  match l with
  | .v x => t.readV x = s.readV x
  | .i => t.i = s.i
  | .pc => t.pc = s.pc
  | .slot k => t.stack[k.val] = s.stack[k.val]
  | .sp => t.sp = s.sp
  | .dt => t.dt = s.dt
  | .st => t.st = s.st
  | .run => t.run = s.run
  | .ir => t.ir = s.ir
  | .redraw => t.redraw = s.redraw
  | .faultCause => t.faultCause = s.faultCause
  | .faultInstr => t.faultInstr = s.faultInstr
  | .faultPc => t.faultPc = s.faultPc
  | .mem a => t.mem.read a = s.mem.read a
  | .pixel k => lit t.fb k = lit s.fb k
  | .key k => keyDown t.keys k = keyDown s.keys k
  | .rnd => t.rnd = s.rnd
  | .draws => t.draws = s.draws
  | .schedule => t.schedule = s.schedule
  | .frames => t.frames = s.frames

/-- The column "writes" of R23: the places an instruction executed without a fault may change. The addresses of a store
and the pixels of a sprite are computed from the state before the instruction (R10). CXNN also advances the random
input, which is the model's own bookkeeping of R152. -/
def mayWrite (i : Instr) (s : State) (l : Loc) : Prop :=
  match i with
  | .cls => l = .redraw ∨ l = .pc ∨ ∃ k, l = .pixel k
  | .ret => l = .sp ∨ l = .pc
  | .jp _ | .jpV0 _ => l = .pc
  | .call _ => l = .sp ∨ l = .pc ∨ ∃ k : Fin 16, k.val = s.sp.toNat ∧ l = .slot k
  | .seNn _ _ | .sneNn _ _ | .seVy _ _ | .sneVy _ _ => l = .pc
  | .ldNn x _ | .addNn x _ => l = .v x ∨ l = .pc
  | .ldVy x _ | .or x _ | .and x _ | .xor x _ => l = .v x ∨ l = .pc
  | .addVy x _ | .sub x _ | .subn x _ | .shr x _ | .shl x _ => l = .v x ∨ l = .v vf ∨ l = .pc
  | .ldI _ => l = .i ∨ l = .pc
  | .rnd x _ => l = .v x ∨ l = .pc ∨ l = .rnd ∨ l = .draws
  | .drw x y n =>
    l = .v vf ∨ l = .redraw ∨ l = .pc ∨
      ∃ r c, r < n.toNat ∧ c < 8 ∧ l = .pixel (fbIndex ((s.readV x).toNat + c) ((s.readV y).toNat + r))
  | .skp x | .sknp x => l = .pc ∨ l = .key (lowNibble (s.readV x))
  | .ldVxDt x => l = .v x ∨ l = .pc
  | .ldVxK _ => l = .run
  | .ldDtVx _ => l = .dt ∨ l = .pc
  | .ldStVx _ => l = .st ∨ l = .pc
  | .addI _ => l = .i ∨ l = .v vf ∨ l = .pc
  | .ldF _ => l = .i ∨ l = .pc
  | .ldB _ => l = .pc ∨ ∃ k, k < 3 ∧ l = .mem (s.i.toNat + k)
  | .stRegs x => l = .pc ∨ ∃ k, k ≤ x.toNat ∧ l = .mem (s.i.toNat + k)
  | .ldRegs x => l = .pc ∨ ∃ k : Nibble, k.toNat ≤ x.toNat ∧ l = .v k

/-- Everything an instruction does not write is unchanged (R13). -/
def OnlyWrites (i : Instr) (s t : State) : Prop := ∀ l, ¬ mayWrite i s l → l.same s t

/-- What trap entry writes (R217), and nothing else. -/
def OnlyTraps (s t : State) : Prop :=
  ∀ l : Loc, l ≠ .run → l ≠ .faultCause → l ≠ .faultInstr → l ≠ .faultPc → l.same s t

/-! ### Faults of the instructions (R216) -/

/-- The fault an instruction raises in a state, apart from the fetch fault (R216). -/
def raises (i : Instr) (s : State) : Option TrapCause :=
  match i with
  | .ret => if s.sp = 0#5 then some .stackUnderflow else none
  | .call _ => if s.sp = 16#5 then some .stackOverflow else none
  | .drw _ _ n => if 0 < n.toNat ∧ 0xFFF < s.i.toNat + n.toNat - 1 then some .memoryOutOfBounds else none
  | .ldB _ => if 0xFFF < s.i.toNat + 2 then some .memoryOutOfBounds else none
  | .stRegs x | .ldRegs x => if 0xFFF < s.i.toNat + x.toNat then some .memoryOutOfBounds else none
  | .cls | .jp _ | .jpV0 _ | .ldI _ => none
  | .seNn _ _ | .sneNn _ _ | .seVy _ _ | .sneVy _ _ => none
  | .ldNn _ _ | .addNn _ _ | .ldVy _ _ | .or _ _ | .and _ _ | .xor _ _ | .addVy _ _ | .sub _ _ | .shr _ _
  | .subn _ _ | .shl _ _ | .rnd _ _ => none
  | .skp _ | .sknp _ | .ldVxDt _ | .ldVxK _ | .ldDtVx _ | .ldStVx _ | .addI _ | .ldF _ => none

/-- An instruction is encoded as `w`, and `w` decodes to nothing else. -/
def EncodedAs (i : Instr) (w : Word) : Prop := encode i = w ∧ decodeWord w = .ok i

/-! ### Which step comes next -/

/-- The next step of the machine is an instruction step of the core. -/
def State.coreNext (s : State) : Prop := s.schedule = [] ∨ ∃ rest, s.schedule = .instruction :: rest

/-- The next step of the machine is `Reset(ROM)` for some image. -/
def State.resetNext (s : State) : Prop := ∃ rom rest, s.schedule = .reset rom :: rest

/-- The state an instruction executes in: `IR` holds its word, and the step itself is off the schedule (R210). -/
def State.fetched (s : State) (w : Word) : State := { s with ir := w, schedule := s.schedule.tail }

/-- The next step executes instruction `i`, fetched as the word `w` (R210). -/
def State.executes (s : State) (w : Word) (i : Instr) : Prop :=
  s.run = .running ∧ s.coreNext ∧ s.fetch = some w ∧ decodeWord w = .ok i

/-! ### The invariant -/

/-- What holds of every state a run from reset reaches, between two steps of the machine. -/
structure State.Inv (s : State) : Prop where
  /-- memory is in canonical form -/
  memory : Memory.wf s.mem
  /-- `0 ≤ SP ≤ 16` (R30) -/
  stackPointer : s.sp.toNat ≤ 16
  /-- "every reachable value of PC is at most 0x1002" (R28) -/
  programCounter : s.pc.toNat ≤ 0x1002
  /-- "a popped slot holds an address at which a 2NNN executed, so at most 0xFFE" (R28) -/
  slots : ∀ k (h : k < 16), s.stack[k].toNat ≤ 0xFFE
  /-- "it is 0 between instruction steps" (R35) -/
  redrawClear : s.redraw = false
  /-- the fault registers are written by trap entry only, which halts (R36, R217) -/
  faultFree : s.run ≠ .halted → s.faultCause = 0#3 ∧ s.faultInstr = 0x0000#16 ∧ s.faultPc = 0x0000#16
  /-- "5 to 7 never written" (R36) -/
  causeKnown : s.faultCause.toNat ≤ 4
  /-- `PC` stays at the faulting instruction (R217) -/
  faultAtPc : s.faultCause ≠ 0#3 → s.faultPc = s.pc
  /-- "A fetch fault is told from a data fault by FAULT_PC > 0xFFE" (R215) -/
  fetchFault : s.faultCause ≠ 0#3 → 0xFFE < s.faultPc.toNat → s.faultCause = 2#3 ∧ s.faultInstr = 0x0000#16
  /-- cause 1 is latched for a word that decodes to no instruction (R215) -/
  illegalCause : s.faultCause = 1#3 → ∀ i, decodeWord s.faultInstr ≠ .ok i
  /-- cause 3 is latched with a full stack (R215) -/
  overflowCause : s.faultCause = 3#3 → s.sp = 16#5 ∧ opField s.faultInstr = 0x2#4
  /-- cause 4 is latched with an empty stack (R215) -/
  underflowCause : s.faultCause = 4#3 → s.sp = 0#5 ∧ s.faultInstr = 0x00EE#16
  /-- while the core waits, `IR` holds an FX0A that was fetched at `PC` (R33, R34) -/
  waiting : s.run = .awaitKey → s.pc.toNat ≤ 0xFFE ∧ decodeWord s.ir = .ok (.ldVxK (xField s.ir))

/-! ### The end of a run -/

/-- A fault has ended the run: "a fault state that is never a good final state" (R218). -/
def State.faulted (s : State) : Prop := s.run = .halted ∧ s.faultCause ≠ 0#3

/-- The stop signal has ended the run (R36, R222). -/
def State.stopped (s : State) : Prop := s.run = .halted ∧ s.faultCause = 0#3

/-- The run has reached its end at `a`: a jump to itself stands there (R244). -/
def State.atEnd (s : State) (a : Imm12) : Prop :=
  s.run = .running ∧ s.pc = addressOf a ∧ s.fetch = some (packA 0x1#4 a)

/-- A run is safe for `n` steps: no step of the model stops and no state is faulted. -/
def SafeFor : Nat → State → Prop
  | 0, s => ¬ s.faulted
  | n + 1, s => ¬ s.faulted ∧ ∃ t, step s = .next t ∧ SafeFor n t

/-- Steps of the machine during which the core takes no reset and calls no subroutine with `SP = k`: the slot `k`
belongs to one pending call all along (R129). -/
inductive WithinCall (k : Nat) : State → State → Prop where
  | here (s : State) : WithinCall k s s
  | next {s t u : State} (before : WithinCall k s t) (taken : step t = .next u) (noReset : ¬ t.resetNext)
      (noCall : ∀ w nnn, t.executes w (.call nnn) → t.sp.toNat ≠ k) : WithinCall k s u

end Sys2Proof.Machine
end

