-- ==== Sys2Proof/Certificates/Slice0/Obligations.lean ====
section
/-! DEFINITION. The statements for the provers. Each docstring names the rules of spec/ it formalises. `exec` is the
meaning of an instruction once fetched (`IR` holds its word); `OnlyWrites` says that everything R23 does not list for
the instruction is unchanged, every byte of memory included. -/

open Sys2Proof Sys2Proof.Machine

/-! ## Encoding -/

/-- Sanity: words written out from R96 decode to their instructions, one or more of each family. -/
def Obligations.SampleWordsDecode : Prop :=
  decodeWord 0x00E0#16 = .ok .cls ∧ decodeWord 0x00EE#16 = .ok .ret ∧ decodeWord 0x2ABC#16 = .ok (.call 0xABC#12) ∧
  decodeWord 0x332A#16 = .ok (.seNn 0x3#4 0x2A#8) ∧ decodeWord 0x8127#16 = .ok (.subn 0x1#4 0x2#4) ∧
  decodeWord 0xD125#16 = .ok (.drw 0x1#4 0x2#4 0x5#4) ∧ decodeWord 0xE29E#16 = .ok (.skp 0x2#4) ∧
  decodeWord 0xF415#16 = .ok (.ldDtVx 0x4#4) ∧ decodeWord 0xF255#16 = .ok (.stRegs 0x2#4)

/-- Headline: for every instruction, with every operand at every value the encoding admits, decoding its two bytes at
the head of any byte sequence gives it back and leaves the rest (R90, R93, R96). -/
def Obligations.DecodeOfEncodeIsIdentity : Prop :=
  ∀ (i : Instr) (rest : List Byte), i.wellFormed → decode (encodeBytes i ++ rest) = .ok (i, rest)

/-- Every legal word is the encoding of the instruction it decodes to: each word has one meaning. -/
def Obligations.EncodeOfDecodeIsIdentity : Prop :=
  ∀ (w : Word) (i : Instr), decodeWord w = .ok i → encode i = w

/-- R95: a word selects the one row of R96 whose match and mask it satisfies; a word that satisfies no row is
illegal. -/
def Obligations.DecoderSelectsTheTableRow : Prop :=
  ∀ w : Word,
    (∀ i, decodeWord w = .ok i → rowOf i ∈ opcodeTable ∧ ∀ r ∈ opcodeTable, r.selects w = true ↔ r = rowOf i) ∧
    (∀ e, decodeWord w = .error e → e = .illegalWord w ∧ ∀ r ∈ opcodeTable, r.selects w = false)

/-- The six families of illegal words of R101's table, and nothing else. -/
def Obligations.IllegalWordsAreExactly : Prop :=
  ∀ w : Word, (∃ e, decodeWord w = .error e) ↔
    (opField w = 0x0#4 ∧ w ≠ 0x00E0#16 ∧ w ≠ 0x00EE#16) ∨
    (opField w = 0x5#4 ∧ nField w ≠ 0x0#4) ∨
    (opField w = 0x8#4 ∧ nField w ∈ [0x8#4, 0x9#4, 0xA#4, 0xB#4, 0xC#4, 0xD#4, 0xF#4]) ∨
    (opField w = 0x9#4 ∧ nField w ≠ 0x0#4) ∨
    (opField w = 0xE#4 ∧ nnField w ∉ [0x9E#8, 0xA1#8]) ∨
    (opField w = 0xF#4 ∧
      nnField w ∉ [0x07#8, 0x0A#8, 0x15#8, 0x18#8, 0x1E#8, 0x29#8, 0x33#8, 0x55#8, 0x65#8])

/-- R92 and R62: the fields overlap as the rule says (`NN = Y ++ N`, `NNN = X ++ Y ++ N`), together they are the whole
word, and the two bytes of a word are `OP ++ X` at the lower address and `Y ++ N` at the higher. -/
def Obligations.FieldsMakeUpTheWord : Prop :=
  ∀ w : Word,
    nnField w = yField w ++ nField w ∧ nnnField w = xField w ++ yField w ++ nField w ∧
    w = opField w ++ xField w ++ yField w ++ nField w ∧
    highByte w = opField w ++ xField w ∧ lowByte w = yField w ++ nField w ∧
    wordOfBytes (highByte w) (lowByte w) = w

/-! ## Control transfer -/

/-- R121: 00EE pops the most recent call-site address and resumes two bytes after it; the slot keeps its value. On an
empty stack it raises `StackUnderflow` and nothing but the fault registers and `RUN` changes. -/
def Obligations.RetResumesAfterTheCallSite : Prop :=
  EncodedAs .ret 0x00EE#16 ∧
  ∀ s : State,
    (∀ h : 0 < s.sp.toNat ∧ s.sp.toNat ≤ 16, ∃ t, exec .ret s = .next t ∧ t.sp.toNat = s.sp.toNat - 1 ∧
      t.pc.toNat = ((s.stack[s.sp.toNat - 1]'(by omega)).toNat + 2) % 65536 ∧ OnlyWrites .ret s t) ∧
    (s.sp = 0#5 → ∃ t, exec .ret s = .next t ∧ t.run = .halted ∧ t.faultCause = 4#3 ∧ t.faultInstr = s.ir ∧
      t.faultPc = s.pc ∧ OnlyTraps s t)

/-- R122: 1NNN sets `PC` to `NNN`. -/
def Obligations.JpSetsThePc : Prop :=
  ∀ (nnn : Imm12) (s : State), EncodedAs (.jp nnn) (0x1#4 ++ nnn) ∧
    ∃ t, exec (.jp nnn) s = .next t ∧ t.pc.toNat = nnn.toNat ∧ OnlyWrites (.jp nnn) s t

/-- R123: 2NNN pushes the address of the call itself and jumps; on a full stack it raises `StackOverflow` and nothing
but the fault registers and `RUN` changes. -/
def Obligations.CallPushesTheCallSite : Prop :=
  ∀ (nnn : Imm12) (s : State), EncodedAs (.call nnn) (0x2#4 ++ nnn) ∧
    (∀ h : s.sp.toNat < 16, ∃ t, exec (.call nnn) s = .next t ∧ t.stack[s.sp.toNat] = s.pc ∧
      t.sp.toNat = s.sp.toNat + 1 ∧ t.pc.toNat = nnn.toNat ∧ OnlyWrites (.call nnn) s t) ∧
    (s.sp = 16#5 → ∃ t, exec (.call nnn) s = .next t ∧ t.run = .halted ∧ t.faultCause = 3#3 ∧ t.faultInstr = s.ir ∧
      t.faultPc = s.pc ∧ OnlyTraps s t)

/-- R124 to R127: the four register skips compare and advance by 4 or 2, and change nothing else. -/
def Obligations.SkipsCompareAndAdvance : Prop :=
  ∀ (x y : Nibble) (nn : Byte) (s : State),
    (EncodedAs (.seNn x nn) (0x3#4 ++ x ++ nn) ∧ ∃ t, exec (.seNn x nn) s = .next t ∧
      t.pc.toNat = (s.pc.toNat + if s.readV x = nn then 4 else 2) % 65536 ∧ OnlyWrites (.seNn x nn) s t) ∧
    (EncodedAs (.sneNn x nn) (0x4#4 ++ x ++ nn) ∧ ∃ t, exec (.sneNn x nn) s = .next t ∧
      t.pc.toNat = (s.pc.toNat + if s.readV x = nn then 2 else 4) % 65536 ∧ OnlyWrites (.sneNn x nn) s t) ∧
    (EncodedAs (.seVy x y) (0x5#4 ++ x ++ y ++ 0x0#4) ∧ ∃ t, exec (.seVy x y) s = .next t ∧
      t.pc.toNat = (s.pc.toNat + if s.readV x = s.readV y then 4 else 2) % 65536 ∧ OnlyWrites (.seVy x y) s t) ∧
    (EncodedAs (.sneVy x y) (0x9#4 ++ x ++ y ++ 0x0#4) ∧ ∃ t, exec (.sneVy x y) s = .next t ∧
      t.pc.toNat = (s.pc.toNat + if s.readV x = s.readV y then 2 else 4) % 65536 ∧ OnlyWrites (.sneVy x y) s t)

/-- R128: BNNN jumps to `V0 + NNN` reduced modulo 4096. -/
def Obligations.JpV0WrapsInsideMemory : Prop :=
  ∀ (nnn : Imm12) (s : State), EncodedAs (.jpV0 nnn) (0xB#4 ++ nnn) ∧
    ∃ t, exec (.jpV0 nnn) s = .next t ∧ t.pc.toNat = ((s.readV 0x0#4).toNat + nnn.toNat) % 4096 ∧
      OnlyWrites (.jpV0 nnn) s t

/-- R129: the call and return round trip, at any nesting depth: if a 2NNN at address `a` executes with `SP = s < 16`,
and later a 00EE executes with `SP = s + 1` and no 2NNN has meanwhile executed with `SP = s` (nor a reset been taken),
then after that 00EE `PC = a + 2` and `SP = s`. -/
def Obligations.CallReturnRoundTrip : Prop :=
  ∀ (s0 s1 s2 : State) (w0 w2 : Word) (nnn : Imm12),
    s0.executes w0 (.call nnn) → s0.sp.toNat < 16 → step s0 = .next s1 → WithinCall s0.sp.toNat s1 s2 →
    s2.executes w2 .ret → s2.sp.toNat = s0.sp.toNat + 1 →
    ∃ s3, step s2 = .next s3 ∧ s3.pc.toNat = (s0.pc.toNat + 2) % 65536 ∧ s3.sp = s0.sp

/-! ## Register load, arithmetic, logic, shift, random -/

/-- R140 and R141: load and add immediate; the sum wraps at 256 and leaves VF alone. -/
def Obligations.ImmediateLoadAndAdd : Prop :=
  ∀ (x : Nibble) (nn : Byte) (s : State),
    (EncodedAs (.ldNn x nn) (0x6#4 ++ x ++ nn) ∧ ∃ t, exec (.ldNn x nn) s = .next t ∧ t.readV x = nn ∧
      t.pc = s.pc + 2#16 ∧ OnlyWrites (.ldNn x nn) s t) ∧
    (EncodedAs (.addNn x nn) (0x7#4 ++ x ++ nn) ∧ ∃ t, exec (.addNn x nn) s = .next t ∧
      (t.readV x).toNat = ((s.readV x).toNat + nn.toNat) % 256 ∧ t.pc = s.pc + 2#16 ∧ OnlyWrites (.addNn x nn) s t)

/-- R142 to R145: copy and the bitwise operations; VF is left as it was unless it is `VX`. -/
def Obligations.CopyAndLogic : Prop :=
  ∀ (x y : Nibble) (s : State),
    (EncodedAs (.ldVy x y) (0x8#4 ++ x ++ y ++ 0x0#4) ∧ ∃ t, exec (.ldVy x y) s = .next t ∧
      t.readV x = s.readV y ∧ t.pc = s.pc + 2#16 ∧ OnlyWrites (.ldVy x y) s t) ∧
    (EncodedAs (.or x y) (0x8#4 ++ x ++ y ++ 0x1#4) ∧ ∃ t, exec (.or x y) s = .next t ∧
      t.readV x = s.readV x ||| s.readV y ∧ t.pc = s.pc + 2#16 ∧ OnlyWrites (.or x y) s t) ∧
    (EncodedAs (.and x y) (0x8#4 ++ x ++ y ++ 0x2#4) ∧ ∃ t, exec (.and x y) s = .next t ∧
      t.readV x = s.readV x &&& s.readV y ∧ t.pc = s.pc + 2#16 ∧ OnlyWrites (.and x y) s t) ∧
    (EncodedAs (.xor x y) (0x8#4 ++ x ++ y ++ 0x3#4) ∧ ∃ t, exec (.xor x y) s = .next t ∧
      t.readV x = s.readV x ^^^ s.readV y ∧ t.pc = s.pc + 2#16 ∧ OnlyWrites (.xor x y) s t)

/-- R146: the sum modulo 256 and the carry; with `X = 15` the flag, written last, wins. -/
def Obligations.AddWithCarryOut : Prop :=
  ∀ (x y : Nibble) (s : State), EncodedAs (.addVy x y) (0x8#4 ++ x ++ y ++ 0x4#4) ∧
    ∃ t, exec (.addVy x y) s = .next t ∧
      (x ≠ vf → (t.readV x).toNat = ((s.readV x).toNat + (s.readV y).toNat) % 256) ∧
      t.readV vf = (if (s.readV x).toNat + (s.readV y).toNat > 255 then 0x01#8 else 0x00#8) ∧
      t.pc = s.pc + 2#16 ∧ OnlyWrites (.addVy x y) s t

/-- R147: the difference modulo 256 and the strict comparison; with `X = 15` the flag, written last, wins. -/
def Obligations.SubtractSetsStrictFlag : Prop :=
  ∀ (x y : Nibble) (s : State), EncodedAs (.sub x y) (0x8#4 ++ x ++ y ++ 0x5#4) ∧
    ∃ t, exec (.sub x y) s = .next t ∧
      (x ≠ vf → ((t.readV x).toNat : Int) = (((s.readV x).toNat : Int) - ((s.readV y).toNat : Int)) % 256) ∧
      t.readV vf = (if (s.readV x).toNat > (s.readV y).toNat then 0x01#8 else 0x00#8) ∧
      t.pc = s.pc + 2#16 ∧ OnlyWrites (.sub x y) s t

/-- R149: the reverse difference modulo 256 and the strict comparison; with `X = 15` the flag, written last, wins. -/
def Obligations.ReverseSubtractSetsStrictFlag : Prop :=
  ∀ (x y : Nibble) (s : State), EncodedAs (.subn x y) (0x8#4 ++ x ++ y ++ 0x7#4) ∧
    ∃ t, exec (.subn x y) s = .next t ∧
      (x ≠ vf → ((t.readV x).toNat : Int) = (((s.readV y).toNat : Int) - ((s.readV x).toNat : Int)) % 256) ∧
      t.readV vf = (if (s.readV y).toNat > (s.readV x).toNat then 0x01#8 else 0x00#8) ∧
      t.pc = s.pc + 2#16 ∧ OnlyWrites (.subn x y) s t

/-- R148 and R150: the shifts by one, `Y` ignored: VF takes the bit shifted out as 0 or 1; with `X = 15` the shifted
value, written last, wins. -/
def Obligations.ShiftsByOne : Prop :=
  ∀ (x y : Nibble) (s : State),
    (EncodedAs (.shr x y) (0x8#4 ++ x ++ y ++ 0x6#4) ∧ ∃ t, exec (.shr x y) s = .next t ∧
      (t.readV x).toNat = (s.readV x).toNat / 2 ∧ (x ≠ vf → (t.readV vf).toNat = (s.readV x).toNat % 2) ∧
      t.pc = s.pc + 2#16 ∧ OnlyWrites (.shr x y) s t) ∧
    (EncodedAs (.shl x y) (0x8#4 ++ x ++ y ++ 0xE#4) ∧ ∃ t, exec (.shl x y) s = .next t ∧
      (t.readV x).toNat = 2 * (s.readV x).toNat % 256 ∧ (x ≠ vf → (t.readV vf).toNat = (s.readV x).toNat / 128) ∧
      t.pc = s.pc + 2#16 ∧ OnlyWrites (.shl x y) s t)

/-- R152: CXNN draws exactly one byte, the next of the supplied stream, and writes it under the mask; where the stream
is empty the byte is free, and the result is only known to lie under the mask. -/
def Obligations.RandomByteUnderMask : Prop :=
  ∀ (x : Nibble) (nn : Byte) (s : State), EncodedAs (.rnd x nn) (0xC#4 ++ x ++ nn) ∧
    ∃ t, exec (.rnd x nn) s = .next t ∧ (∀ r rest, s.rnd = r :: rest → t.readV x = r &&& nn ∧ t.rnd = rest) ∧
      (t.readV x) &&& nn = t.readV x ∧ t.draws = s.draws + 1 ∧ t.pc = s.pc + 2#16 ∧ OnlyWrites (.rnd x nn) s t

/-- R13, R22: VF changes only in the seven instructions that set it and in those that name it as their destination. -/
def Obligations.VfWrittenOnlyAsListed : Prop :=
  ∀ (i : Instr) (s t : State), exec i s = .next t → t.readV vf ≠ s.readV vf →
    (∃ x y, i = .addVy x y ∨ i = .sub x y ∨ i = .shr x y ∨ i = .subn x y ∨ i = .shl x y) ∨
    (∃ x y n, i = .drw x y n) ∨ (∃ x, i = .addI x) ∨
    (∃ nn, i = .ldNn vf nn ∨ i = .addNn vf nn ∨ i = .rnd vf nn) ∨
    (∃ y, i = .ldVy vf y ∨ i = .or vf y ∨ i = .and vf y ∨ i = .xor vf y) ∨ i = .ldVxDt vf ∨ i = .ldRegs vf

/-! ## Index register and memory -/

/-- R160 and R162: ANNN loads `NNN`; FX29 loads the address of the glyph of the low digit of `VX`. -/
def Obligations.IndexLoads : Prop :=
  ∀ (nnn : Imm12) (x : Nibble) (s : State),
    (EncodedAs (.ldI nnn) (0xA#4 ++ nnn) ∧ ∃ t, exec (.ldI nnn) s = .next t ∧ t.i.toNat = nnn.toNat ∧
      t.pc = s.pc + 2#16 ∧ OnlyWrites (.ldI nnn) s t) ∧
    (EncodedAs (.ldF x) (0xF#4 ++ x ++ 0x29#8) ∧ ∃ t, exec (.ldF x) s = .next t ∧
      t.i.toNat = 5 * ((s.readV x).toNat % 16) ∧ t.pc = s.pc + 2#16 ∧ OnlyWrites (.ldF x) s t)

/-- R161: `I` wraps at 65536 only, and VF tells from the unwrapped sum whether it lies above 0xFFF. -/
def Obligations.AddToIndexFlagsRange : Prop :=
  ∀ (x : Nibble) (s : State), EncodedAs (.addI x) (0xF#4 ++ x ++ 0x1E#8) ∧
    ∃ t, exec (.addI x) s = .next t ∧ t.i.toNat = (s.i.toNat + (s.readV x).toNat) % 65536 ∧
      t.readV vf = (if s.i.toNat + (s.readV x).toNat > 0xFFF then 0x01#8 else 0x00#8) ∧
      t.pc = s.pc + 2#16 ∧ OnlyWrites (.addI x) s t

/-- R163: FX33 stores the three decimal digits of `VX` at `I`, `I + 1`, `I + 2`, and raises `MemoryOutOfBounds` with no
byte written when one of them lies above 0xFFF. -/
def Obligations.DecimalDigitsStored : Prop :=
  ∀ (x : Nibble) (s : State), Memory.wf s.mem → EncodedAs (.ldB x) (0xF#4 ++ x ++ 0x33#8) ∧
    (s.i.toNat + 2 ≤ 0xFFF → ∃ t, exec (.ldB x) s = .next t ∧
      (t.mem.read s.i.toNat).toNat = (s.readV x).toNat / 100 ∧
      (t.mem.read (s.i.toNat + 1)).toNat = (s.readV x).toNat / 10 % 10 ∧
      (t.mem.read (s.i.toNat + 2)).toNat = (s.readV x).toNat % 10 ∧
      t.pc = s.pc + 2#16 ∧ OnlyWrites (.ldB x) s t) ∧
    (s.i.toNat + 2 > 0xFFF → ∃ t, exec (.ldB x) s = .next t ∧ t.run = .halted ∧ t.faultCause = 2#3 ∧
      t.faultInstr = s.ir ∧ t.faultPc = s.pc ∧ OnlyTraps s t)

/-- R165: FX55 stores `V0` to `VX`, `VX` included, at `I` to `I + X`, leaving `I` and every other byte, and raises
`MemoryOutOfBounds` with no byte written when the range passes 0xFFF. -/
def Obligations.RegistersStored : Prop :=
  ∀ (x : Nibble) (s : State), Memory.wf s.mem → EncodedAs (.stRegs x) (0xF#4 ++ x ++ 0x55#8) ∧
    (s.i.toNat + x.toNat ≤ 0xFFF → ∃ t, exec (.stRegs x) s = .next t ∧
      (∀ k : Nibble, k.toNat ≤ x.toNat → t.mem.read (s.i.toNat + k.toNat) = s.readV k) ∧
      t.pc = s.pc + 2#16 ∧ OnlyWrites (.stRegs x) s t) ∧
    (s.i.toNat + x.toNat > 0xFFF → ∃ t, exec (.stRegs x) s = .next t ∧ t.run = .halted ∧ t.faultCause = 2#3 ∧
      t.faultInstr = s.ir ∧ t.faultPc = s.pc ∧ OnlyTraps s t)

/-- R166: FX65 loads `V0` to `VX`, `VX` included, from `I` to `I + X`, leaving `I` and the registers above `VX`, and
raises `MemoryOutOfBounds` with no register written when the range passes 0xFFF. -/
def Obligations.RegistersLoaded : Prop :=
  ∀ (x : Nibble) (s : State), EncodedAs (.ldRegs x) (0xF#4 ++ x ++ 0x65#8) ∧
    (s.i.toNat + x.toNat ≤ 0xFFF → ∃ t, exec (.ldRegs x) s = .next t ∧
      (∀ k : Nibble, k.toNat ≤ x.toNat → t.readV k = s.mem.read (s.i.toNat + k.toNat)) ∧
      t.pc = s.pc + 2#16 ∧ OnlyWrites (.ldRegs x) s t) ∧
    (s.i.toNat + x.toNat > 0xFFF → ∃ t, exec (.ldRegs x) s = .next t ∧ t.run = .halted ∧ t.faultCause = 2#3 ∧
      t.faultInstr = s.ir ∧ t.faultPc = s.pc ∧ OnlyTraps s t)

/-- R74: the very next fetch sees what FX55 stored: if both bytes at the next `PC` lie in the stored range, the word
fetched is made of the two registers stored there. -/
def Obligations.StoreThenFetchSeesNewBytes : Prop :=
  ∀ (x k : Nibble) (s t : State), Memory.wf s.mem → exec (.stRegs x) s = .next t → t.run ≠ .halted →
    k.toNat + 1 ≤ x.toNat → t.pc.toNat = s.i.toNat + k.toNat →
    t.fetch = some (s.readV k ++ s.readV (k + 1#4))

/-- R60: the three spaces are reached only as listed: in one step of the machine, memory changes only by FX33, FX55 or
reset; the framebuffer only by 00E0, DXYN or reset; a key is released only by EX9E, EXA1, `Release` or reset, and
pressed only by `Press`. -/
def Obligations.SpacesReachedOnlyAsListed : Prop :=
  ∀ s t : State, step s = .next t → ¬ s.resetNext →
    (t.mem ≠ s.mem → ∃ w x, s.executes w (.ldB x) ∨ s.executes w (.stRegs x)) ∧
    (t.fb ≠ s.fb → ∃ w, s.executes w .cls ∨ ∃ x y n, s.executes w (.drw x y n)) ∧
    (∀ k, keyDown s.keys k = true → keyDown t.keys k = false →
      (∃ w x, lowNibble (s.readV x) = k ∧ (s.executes w (.skp x) ∨ s.executes w (.sknp x))) ∨
      ∃ rest, s.schedule = .release k :: rest) ∧
    (∀ k, keyDown s.keys k = false → keyDown t.keys k = true → ∃ rest, s.schedule = .press k :: rest)

/-! ## Display -/

/-- R180: 00E0 clears all 2048 pixels and requests a frame, whatever was lit. -/
def Obligations.ClearScreenRequestsFrame : Prop :=
  ∀ s : State, EncodedAs .cls 0x00E0#16 ∧
    ∃ t, exec .cls s = .next t ∧ (∀ k, lit t.fb k = false) ∧ t.redraw = true ∧ t.pc = s.pc + 2#16 ∧ OnlyWrites .cls s t

/-- R181: DXYN flips exactly the pixels under the 1 bits of the sprite's rows, each coordinate wrapped on its own, and
sets VF to 1 exactly when one of them was lit; with `N = 0` it draws nothing and cannot fault; when a row lies above
0xFFF it raises `MemoryOutOfBounds` and draws nothing. -/
def Obligations.SpriteDrawnByXor : Prop :=
  ∀ (x y n : Nibble) (s : State), EncodedAs (.drw x y n) (0xD#4 ++ x ++ y ++ n) ∧
    (n = 0x0#4 ∨ s.i.toNat + n.toNat - 1 ≤ 0xFFF → ∃ t, exec (.drw x y n) s = .next t ∧
      (∀ r c, r < n.toNat → c < 8 →
        lit t.fb (fbIndex ((s.readV x).toNat + c) ((s.readV y).toNat + r)) =
          (lit s.fb (fbIndex ((s.readV x).toNat + c) ((s.readV y).toNat + r)) ^^
            (s.mem.read (s.i.toNat + r)).getLsbD (7 - c))) ∧
      (t.readV vf = 0x00#8 ∨ t.readV vf = 0x01#8) ∧
      (t.readV vf = 0x01#8 ↔ ∃ r c, r < n.toNat ∧ c < 8 ∧ (s.mem.read (s.i.toNat + r)).getLsbD (7 - c) = true ∧
        lit s.fb (fbIndex ((s.readV x).toNat + c) ((s.readV y).toNat + r)) = true) ∧
      t.redraw = true ∧ t.pc = s.pc + 2#16 ∧ OnlyWrites (.drw x y n) s t) ∧
    (n ≠ 0x0#4 ∧ s.i.toNat + n.toNat - 1 > 0xFFF → ∃ t, exec (.drw x y n) s = .next t ∧ t.run = .halted ∧
      t.faultCause = 2#3 ∧ t.faultInstr = s.ir ∧ t.faultPc = s.pc ∧ OnlyTraps s t)

/-- Drawing the same sprite twice at the same place restores the framebuffer (corner case of R181). The second draw
reports VF 1 exactly when a 1 bit of the sprite lies on a pixel that was unlit before the first draw, which is what
R181's operation gives (log entry 16); over an unlit area that is when the sprite has any 1 bit. `X` and `Y` other than
15, since VF is written by the first draw. -/
def Obligations.DrawingTwiceRestores : Prop :=
  ∀ (x y n : Nibble) (s t : State), x ≠ vf → y ≠ vf → exec (.drw x y n) s = .next t → t.run ≠ .halted →
    ∃ u, exec (.drw x y n) t = .next u ∧ u.fb = s.fb ∧
      (u.readV vf = 0x01#8 ↔ ∃ r c, r < n.toNat ∧ c < 8 ∧ (s.mem.read (s.i.toNat + r)).getLsbD (7 - c) = true ∧
        lit s.fb (fbIndex ((s.readV x).toNat + c) ((s.readV y).toNat + r)) = false)

/-- R182: no two bits of a sprite land on the same pixel. -/
def Obligations.SpriteBitsNeverCoincide : Prop :=
  ∀ vx vy r c r' c' : Nat, r < 15 → c < 8 → r' < 15 → c' < 8 →
    fbIndex (vx + c) (vy + r) = fbIndex (vx + c') (vy + r') → r = r' ∧ c = c'

/-! ## Keypad -/

/-- R190: EX9E skips when the key is pressed and clears it; otherwise only `PC` changes. Only the low four bits of `VX`
select the key. -/
def Obligations.SkipIfPressedConsumes : Prop :=
  ∀ (x : Nibble) (s : State), EncodedAs (.skp x) (0xE#4 ++ x ++ 0x9E#8) ∧
    ∃ t, exec (.skp x) s = .next t ∧
      t.pc = (if keyDown s.keys (BitVec.ofNat 4 ((s.readV x).toNat % 16)) then s.pc + 4#16 else s.pc + 2#16) ∧
      keyDown t.keys (BitVec.ofNat 4 ((s.readV x).toNat % 16)) = false ∧ OnlyWrites (.skp x) s t

/-- R191: EXA1 skips when the key is not pressed; a press it sees it clears, without a skip. -/
def Obligations.SkipIfNotPressedConsumes : Prop :=
  ∀ (x : Nibble) (s : State), EncodedAs (.sknp x) (0xE#4 ++ x ++ 0xA1#8) ∧
    ∃ t, exec (.sknp x) s = .next t ∧
      t.pc = (if keyDown s.keys (BitVec.ofNat 4 ((s.readV x).toNat % 16)) then s.pc + 2#16 else s.pc + 4#16) ∧
      keyDown t.keys (BitVec.ofNat 4 ((s.readV x).toNat % 16)) = false ∧ OnlyWrites (.sknp x) s t

/-- R192: FX0A makes the core wait and changes nothing else: keys already down do not complete it. -/
def Obligations.KeyWaitEntered : Prop :=
  ∀ (x : Nibble) (s : State), EncodedAs (.ldVxK x) (0xF#4 ++ x ++ 0x0A#8) ∧
    ∃ t, exec (.ldVxK x) s = .next t ∧ t.run = .awaitKey ∧ OnlyWrites (.ldVxK x) s t

/-- R193: while the core waits, `Press(k)` marks the key, writes its code to the register bits 11:8 of `IR` name,
advances `PC` and resumes; nothing else changes. -/
def Obligations.PressCompletesTheWait : Prop :=
  ∀ (k : Nibble) (s : State), s.run = .awaitKey →
    ∃ t, machineStep (.press k) s = .next t ∧ (t.readV (xField s.ir)).toNat = k.toNat ∧ keyDown t.keys k = true ∧
      t.pc = s.pc + 2#16 ∧ t.run = .running ∧
      ∀ l : Loc, l ≠ .v (xField s.ir) → l ≠ .key k → l ≠ .pc → l ≠ .run → l.same s t

/-- R194: while the core waits, a step of its own does nothing (log entry 8), a release changes that key only, a timer
tick the timers only, and a stop halts. -/
def Obligations.WaitingCoreOnlyListens : Prop :=
  ∀ s : State, s.run = .awaitKey →
    machineStep .instruction s = .next s ∧
    (∀ k, ∃ t, machineStep (.release k) s = .next t ∧ keyDown t.keys k = false ∧ ∀ l : Loc, l ≠ .key k → l.same s t) ∧
    (∃ t, machineStep .timerTick s = .next t ∧ t.dt.toNat = s.dt.toNat - 1 ∧ t.st.toNat = s.st.toNat - 1 ∧
      ∀ l : Loc, l ≠ .dt → l ≠ .st → l.same s t) ∧
    (∃ t, machineStep .stop s = .next t ∧ t.run = .halted ∧ ∀ l : Loc, l ≠ .run → l.same s t)

/-- The press state is consumed: a second immediate EX9E on the same key does not skip (property in R190). -/
def Obligations.KeyTestIsOneShot : Prop :=
  ∀ (x : Nibble) (s t : State), exec (.skp x) s = .next t →
    ∃ u, exec (.skp x) t = .next u ∧ u.pc = t.pc + 2#16 ∧ u.keys = t.keys

/-! ## Timers -/

/-- R200 to R202: the three timer instructions copy a byte. -/
def Obligations.TimerRegistersCopied : Prop :=
  ∀ (x : Nibble) (s : State),
    (EncodedAs (.ldVxDt x) (0xF#4 ++ x ++ 0x07#8) ∧ ∃ t, exec (.ldVxDt x) s = .next t ∧ t.readV x = s.dt ∧
      t.pc = s.pc + 2#16 ∧ OnlyWrites (.ldVxDt x) s t) ∧
    (EncodedAs (.ldDtVx x) (0xF#4 ++ x ++ 0x15#8) ∧ ∃ t, exec (.ldDtVx x) s = .next t ∧ t.dt = s.readV x ∧
      t.pc = s.pc + 2#16 ∧ OnlyWrites (.ldDtVx x) s t) ∧
    (EncodedAs (.ldStVx x) (0xF#4 ++ x ++ 0x18#8) ∧ ∃ t, exec (.ldStVx x) s = .next t ∧ t.st = s.readV x ∧
      t.pc = s.pc + 2#16 ∧ OnlyWrites (.ldStVx x) s t)

/-- R225: while the core is not halted, a timer tick decrements both timers, floored at 0, and has no other effect. -/
def Obligations.TimerTickDecrementsBoth : Prop :=
  ∀ s : State, s.run ≠ .halted → ∃ t, machineStep .timerTick s = .next t ∧ t.dt.toNat = s.dt.toNat - 1 ∧
    t.st.toNat = s.st.toNat - 1 ∧ ∀ l : Loc, l ≠ .dt → l ≠ .st → l.same s t

/-- The timers "do not affect PC advancement" (R32), nor anything else but the three instructions that name them: a
tick before any other instruction gives what the same tick after it gives (R226). -/
def Obligations.TicksCommuteWithOtherInstructions : Prop :=
  ∀ (i : Instr) (w : Word) (rest : List MachineStep) (s : State),
    s.run = .running → s.fetch = some w → decodeWord w = .ok i → s.sp.toNat ≤ 16 → raises i s = none →
    (∀ x, i ≠ .ldVxDt x ∧ i ≠ .ldDtVx x ∧ i ≠ .ldStVx x) →
    ∃ t, Sys2Proof.core.run 2 { s with schedule := .timerTick :: .instruction :: rest } = .next t ∧
      Sys2Proof.core.run 2 { s with schedule := .instruction :: .timerTick :: rest } = .next t

/-- The delay timer never rises but by FX15: two reads with no FX15 between them see the same or a smaller second value
(corner case of R200). -/
def Obligations.DelayTimerNeverRises : Prop :=
  ∀ s t : State, step s = .next t → s.dt.toNat < t.dt.toNat → ∃ w x, s.executes w (.ldDtVx x)

/-! ## Faults and the sequencer -/

/-- R216 and R217: exactly when R216's condition holds the instruction raises, and then trap entry latches the cause,
the instruction word and `PC`, halts, and changes nothing else. -/
def Obligations.TrapEntryLatchesAndHalts : Prop :=
  ∀ (i : Instr) (s : State) (c : TrapCause), raises i s = some c →
    ∃ t, exec i s = .next t ∧ t.run = .halted ∧ t.faultCause = c.code ∧ t.faultInstr = s.ir ∧ t.faultPc = s.pc ∧
      OnlyTraps s t

/-- Every instruction that does not raise completes in every state with `SP ≤ 16`: it writes only what R23 lists,
latches no fault, and leaves `RUN` alone unless it is FX0A (R13, R216, R218). -/
def Obligations.OtherwiseEveryInstructionCompletes : Prop :=
  ∀ (i : Instr) (s : State), Memory.wf s.mem → s.sp.toNat ≤ 16 → raises i s = none →
    ∃ t, exec i s = .next t ∧ t.faultCause = s.faultCause ∧ (∀ x, i = .ldVxK x → t.run = .awaitKey) ∧
      ((∀ x, i ≠ .ldVxK x) → t.run = s.run) ∧ OnlyWrites i s t

/-- R26: where each instruction leaves `PC`. -/
def Obligations.PcAfterEachInstruction : Prop :=
  ∀ (i : Instr) (s t : State), exec i s = .next t → s.sp.toNat ≤ 16 →
    match i with
    | .cls | .ldNn _ _ | .addNn _ _ | .ldVy _ _ | .or _ _ | .and _ _ | .xor _ _ | .addVy _ _ | .sub _ _ | .shr _ _
    | .subn _ _ | .shl _ _ | .ldI _ | .rnd _ _ | .drw _ _ _ | .ldVxDt _ | .ldDtVx _ | .ldStVx _ | .addI _ | .ldF _
    | .ldB _ | .stRegs _ | .ldRegs _ => t.pc = (if raises i s = none then s.pc + 2#16 else s.pc)
    | .seNn _ _ | .sneNn _ _ | .seVy _ _ | .sneVy _ _ | .skp _ | .sknp _ => t.pc = s.pc + 4#16 ∨ t.pc = s.pc + 2#16
    | .jp nnn => t.pc.toNat = nnn.toNat
    | .call nnn => t.pc.toNat = (if raises i s = none then nnn.toNat else s.pc.toNat)
    | .jpV0 nnn => t.pc.toNat = ((s.readV 0x0#4).toNat + nnn.toNat) % 4096
    | .ret => t.pc = (if raises i s = none then s.stack[(s.sp.toNat - 1) % 16] + 2#16 else s.pc)
    | .ldVxK _ => t.pc = s.pc

/-- R91 and R215: at a `PC` of at most 0xFFE, odd or even, the word fetched is the byte at `PC` followed by the byte
after it (R62, R65); a fetch that needs a byte above 0xFFF faults as a whole with instruction value 0x0000, whether the
core steps by itself or its step is scheduled before others (log entry 4). The frame is taken against the state with
that step off the schedule. -/
def Obligations.FetchReadsTwoBytesOrFaults : Prop :=
  ∀ s : State,
    (s.pc.toNat ≤ 0xFFE → s.fetch = some (s.mem.read s.pc.toNat ++ s.mem.read (s.pc.toNat + 1))) ∧
    (s.run = .running → s.coreNext → s.pc.toNat > 0xFFE → ∃ t, step s = .next t ∧ t.run = .halted ∧
      t.faultCause = 2#3 ∧ t.faultInstr = 0x0000#16 ∧ t.faultPc = s.pc ∧
      OnlyTraps { s with schedule := s.schedule.tail } t)

/-- R101, R215, R217: a fetched word that matches no row halts the core with cause 1 and the word; `IR` holds it. So it
is whether the core steps by itself or its step is scheduled before others (log entry 4): `s.fetched w` is the state with
that step off the schedule and the word in `IR`, and only trap entry changes it. -/
def Obligations.IllegalWordHalts : Prop :=
  ∀ (s : State) (w : Word), s.run = .running → s.coreNext → s.fetch = some w →
    (∀ r ∈ opcodeTable, r.selects w = false) →
    ∃ t, step s = .next t ∧ t.run = .halted ∧ t.faultCause = 1#3 ∧ t.faultInstr = w ∧ t.faultPc = s.pc ∧ t.ir = w ∧
      OnlyTraps (s.fetched w) t

/-- R210: when the core runs and the bytes at `PC` decode to a well-formed instruction, a step is `exec` of it in the
state in which `IR` holds the word, followed by the render phase unless it faulted. -/
def Obligations.StepRunsDecodedInstruction : Prop :=
  ∀ (i : Instr) (s : State), s.run = .running → s.coreNext → s.pc.toNat ≤ 0xFFE → i.wellFormed →
    decode [s.mem.read s.pc.toNat, s.mem.read (s.pc.toNat + 1)] = .ok (i, []) →
    step s =
      match exec i (s.fetched (s.mem.read s.pc.toNat ++ s.mem.read (s.pc.toNat + 1))) with
      | .next t => .next (if t.run = .halted then t else if t.redraw then
          { t with frames := t.frames ++ [t.fb], redraw := false } else t)
      | .fault r => .fault r
      | .refused r => .refused r

/-- R211: the steps of the machine are taken one whole step at a time in the order of the schedule, any order being
possible; a step of the core that is not enabled changes nothing. -/
def Obligations.ScheduledStepsRunInOrder : Prop :=
  ∀ (e : MachineStep) (rest : List MachineStep) (s : State), s.schedule = e :: rest →
    step s = machineStep e { s with schedule := rest } ∧
    (e = .instruction → s.run ≠ .running → step s = .next { s with schedule := rest }) ∧
    ∀ t, step s = .next t → t.schedule = rest

/-- R232: one frame event, of the framebuffer as the instruction left it, is emitted by each 00E0 and DXYN that does not
fault, and none by any other step; the redraw flag is 0 after every step. -/
def Obligations.OneFramePerDisplayInstruction : Prop :=
  ∀ s t : State, s.redraw = false → step s = .next t →
    t.redraw = false ∧
    ((∃ w i, s.executes w i ∧ (i = .cls ∨ ∃ x y n, i = .drw x y n) ∧ raises i s = none) →
      t.frames = s.frames ++ [t.fb]) ∧
    (¬ (∃ w i, s.executes w i ∧ (i = .cls ∨ ∃ x y n, i = .drw x y n) ∧ raises i s = none) →
      t.frames = s.frames)

/-- R222: a stop halts the core, waiting or running, and changes nothing else; the fault cause stays as it is; in
`Halted` it changes nothing. -/
def Obligations.StopHaltsWithNoCause : Prop :=
  ∀ s : State, ∃ t, machineStep .stop s = .next t ∧ t.run = .halted ∧ t.faultCause = s.faultCause ∧
    ∀ l : Loc, l ≠ .run → l.same s t

/-- R228: `Press(k)` sets `KEYS[k]` in every state of the core and completes FX0A when the core waits; otherwise it, and
`Release(k)` always, change that key only. -/
def Obligations.KeyEventsChangeOneKey : Prop :=
  ∀ (k : Nibble) (s : State),
    (s.run ≠ .awaitKey → ∃ t, machineStep (.press k) s = .next t ∧ keyDown t.keys k = true ∧
      ∀ l : Loc, l ≠ .key k → l.same s t) ∧
    (s.run = .awaitKey → machineStep (.press k) s = .next ((s.writeKeys (keySet s.keys k)).completeKeyWait k)) ∧
    (∃ t, machineStep (.release k) s = .next t ∧ keyDown t.keys k = false ∧ ∀ l : Loc, l ≠ .key k → l.same s t)

/-- Only the transitions of R212 occur: `Halted` is left by reset only; a waiting core leaves its wait only by a press,
a stop or a reset; a running core begins to wait only by FX0A and halts only by a stop or a fault. -/
def Obligations.RunFollowsTheStateMachine : Prop :=
  ∀ s t : State, step s = .next t → ¬ s.resetNext →
    (s.run = .halted → t.run = .halted) ∧
    (s.run = .awaitKey → t.run = .awaitKey ∨ (t.run = .running ∧ ∃ k rest, s.schedule = .press k :: rest) ∨
      (t.run = .halted ∧ ∃ rest, s.schedule = .stop :: rest)) ∧
    (s.run = .running → t.run = .awaitKey → ∃ w x, s.executes w (.ldVxK x)) ∧
    (s.run = .running → t.run = .halted → (∃ rest, s.schedule = .stop :: rest) ∨ (t.faultCause ≠ 0#3 ∧ t.faultPc = s.pc))

/-- R211, R223, R227: "Halted is terminal; no resume": in `Halted` no step of the machine but a reset changes anything,
the key table of `Press` and `Release` apart; the core's own step and a timer tick are not enabled and the model lets
them change nothing (log entry 8). -/
def Obligations.HaltedIsTerminal : Prop :=
  ∀ (e : MachineStep) (s : State), s.run = .halted → (∀ rom, e ≠ .reset rom) →
    ∃ t, machineStep e s = .next t ∧ ∀ l : Loc, (∀ k, e = .press k ∨ e = .release k → l ≠ .key k) → l.same s t

/-- R244: at a jump to itself an instruction step, taken by itself or scheduled before others (log entry 4), leaves
everything unchanged but `IR`, which holds the jump's word. -/
def Obligations.SelfJumpIsTheEnd : Prop :=
  ∀ (a : Imm12) (s : State), s.atEnd a → s.coreNext → s.redraw = false →
    step s = .next (s.fetched (packA 0x1#4 a))

/-! ## Reset -/

/-- R45: what reset leaves, register by register and byte by byte, for every admissible program image. -/
def Obligations.ResetStateValues : Prop :=
  ∀ rom : List Byte, romWellFormed rom →
    (∀ x, (State.ofRom rom).readV x = 0x00#8) ∧ (State.ofRom rom).i = 0x0000#16 ∧ (State.ofRom rom).pc = 0x0200#16 ∧
    (∀ k (h : k < 16), (State.ofRom rom).stack[k] = 0x0000#16) ∧ (State.ofRom rom).sp = 0#5 ∧
    (State.ofRom rom).dt = 0x00#8 ∧ (State.ofRom rom).st = 0x00#8 ∧ (State.ofRom rom).run = .running ∧
    (State.ofRom rom).ir = 0x0000#16 ∧ (State.ofRom rom).redraw = false ∧ (State.ofRom rom).faultCause = 0#3 ∧
    (State.ofRom rom).faultInstr = 0x0000#16 ∧ (State.ofRom rom).faultPc = 0x0000#16 ∧
    (∀ a (h : a < 80), (State.ofRom rom).mem.read a = font[a]'h) ∧
    (∀ a, 0x50 ≤ a → a < 0x200 → (State.ofRom rom).mem.read a = 0x00#8) ∧
    (∀ j (h : j < rom.length), (State.ofRom rom).mem.read (0x200 + j) = rom[j]) ∧
    (∀ a, 0x200 + rom.length ≤ a → (State.ofRom rom).mem.read a = 0x00#8) ∧
    (∀ k, lit (State.ofRom rom).fb k = false) ∧ (∀ k, keyDown (State.ofRom rom).keys k = false)

/-- R260: `Reset(ROM)` from any state, `Halted` included, puts every piece of state of R20 to its value after reset with
that image. The model's own four fields go on (log entries 3, 4, 5). -/
def Obligations.ResetRestoresEverything : Prop :=
  ∀ (rom : List Byte) (s : State), romWellFormed rom →
    ∃ t, machineStep (.reset rom) s = .next t ∧
      ∀ l : Loc, l ≠ .rnd → l ≠ .draws → l ≠ .schedule → l ≠ .frames → l.same (State.ofRom rom) t

/-! ## The invariant of the machine -/

/-- The invariant holds at `State.reset`, and after reset with every admissible program image. -/
def Obligations.InvAfterReset : Prop :=
  State.reset.Inv ∧ ∀ rom : List Byte, romWellFormed rom → (State.ofRom rom).Inv

/-- Headline: every step of the machine, of whichever agent, keeps the invariant: `SP ≤ 16`, `PC ≤ 0x1002`, occupied
slots at most 0xFFE, `REDRAW` 0 between steps, canonical memory, and fault registers that tell the fault (R28, R30,
R35, R36, R215). -/
def Obligations.StepKeepsInv : Prop :=
  ∀ s t : State, s.Inv → step s = .next t → t.Inv

/-- From a state that meets the invariant the model never stops: a step gives a next state unless it is a reset with an
image longer than 3584 bytes (93 U8: "every word in every state gives exactly one successor state"). -/
def Obligations.StepNeverStops : Prop :=
  ∀ s : State, s.Inv → (∀ rom rest, s.schedule = .reset rom :: rest → rom.length ≤ 3584) → ∃ t, step s = .next t
end

