-- ==== Sys2Proof/Laws/Decode.lean ====
section
/-! SUPPORT. Laws of the fields: what each field of a packed word is, and that the fields make up the word. -/

namespace Sys2Proof

/-! ### As numbers -/

theorem toNat_append_eq {n m : Nat} (a : BitVec n) (b : BitVec m) :
    (a ++ b).toNat = a.toNat * 2 ^ m + b.toNat := by
  rw [BitVec.toNat_append, ← Nat.shiftLeft_add_eq_or_of_lt b.isLt, Nat.shiftLeft_eq]

theorem toNat_packA (op : Nibble) (nnn : Imm12) : (packA op nnn).toNat = op.toNat * 4096 + nnn.toNat :=
  toNat_append_eq op nnn

theorem toNat_packI (op x : Nibble) (nn : Byte) :
    (packI op x nn).toNat = op.toNat * 4096 + x.toNat * 256 + nn.toNat := by
  refine (toNat_append_eq (op ++ x) nn).trans ?_
  rw [toNat_append_eq]
  omega

theorem toNat_packR (op x y n : Nibble) :
    (packR op x y n).toNat = op.toNat * 4096 + x.toNat * 256 + y.toNat * 16 + n.toNat := by
  refine (toNat_append_eq (op ++ x ++ y) n).trans ?_
  rw [toNat_append_eq, toNat_append_eq]
  omega

theorem toNat_wordOfBytes (hi lo : Byte) : (wordOfBytes hi lo).toNat = hi.toNat * 256 + lo.toNat :=
  toNat_append_eq hi lo

theorem toNat_opField (w : Word) : (opField w).toNat = w.toNat / 4096 := by
  have := w.isLt
  simp only [opField, BitVec.extractLsb'_toNat, Nat.shiftRight_eq_div_pow]; omega
theorem toNat_xField (w : Word) : (xField w).toNat = w.toNat / 256 % 16 := by
  simp only [xField, BitVec.extractLsb'_toNat, Nat.shiftRight_eq_div_pow, Nat.reducePow]
theorem toNat_yField (w : Word) : (yField w).toNat = w.toNat / 16 % 16 := by
  simp only [yField, BitVec.extractLsb'_toNat, Nat.shiftRight_eq_div_pow, Nat.reducePow]
theorem toNat_nField (w : Word) : (nField w).toNat = w.toNat % 16 := by
  simp only [nField, BitVec.extractLsb'_toNat, Nat.shiftRight_eq_div_pow]; omega
theorem toNat_nnField (w : Word) : (nnField w).toNat = w.toNat % 256 := by
  simp only [nnField, BitVec.extractLsb'_toNat, Nat.shiftRight_eq_div_pow]; omega
theorem toNat_nnnField (w : Word) : (nnnField w).toNat = w.toNat % 4096 := by
  simp only [nnnField, BitVec.extractLsb'_toNat, Nat.shiftRight_eq_div_pow]; omega
theorem toNat_highByte (w : Word) : (highByte w).toNat = w.toNat / 256 := by
  have := w.isLt
  simp only [highByte, BitVec.extractLsb'_toNat, Nat.shiftRight_eq_div_pow]; omega
theorem toNat_lowByte (w : Word) : (lowByte w).toNat = w.toNat % 256 := by
  simp only [lowByte, BitVec.extractLsb'_toNat, Nat.shiftRight_eq_div_pow]; omega

/-! ### The fields of a packed word -/

@[simp] theorem opField_packA (op : Nibble) (nnn : Imm12) : opField (packA op nnn) = op := by
  apply BitVec.eq_of_toNat_eq; rw [toNat_opField, toNat_packA]; omega
@[simp] theorem nnnField_packA (op : Nibble) (nnn : Imm12) : nnnField (packA op nnn) = nnn := by
  apply BitVec.eq_of_toNat_eq; rw [toNat_nnnField, toNat_packA]; omega
@[simp] theorem opField_packI (op x : Nibble) (nn : Byte) : opField (packI op x nn) = op := by
  apply BitVec.eq_of_toNat_eq; rw [toNat_opField, toNat_packI]; omega
@[simp] theorem xField_packI (op x : Nibble) (nn : Byte) : xField (packI op x nn) = x := by
  apply BitVec.eq_of_toNat_eq; rw [toNat_xField, toNat_packI]; omega
@[simp] theorem nnField_packI (op x : Nibble) (nn : Byte) : nnField (packI op x nn) = nn := by
  apply BitVec.eq_of_toNat_eq; rw [toNat_nnField, toNat_packI]; omega
@[simp] theorem opField_packR (op x y n : Nibble) : opField (packR op x y n) = op := by
  apply BitVec.eq_of_toNat_eq; rw [toNat_opField, toNat_packR]; omega
@[simp] theorem xField_packR (op x y n : Nibble) : xField (packR op x y n) = x := by
  apply BitVec.eq_of_toNat_eq; rw [toNat_xField, toNat_packR]; omega
@[simp] theorem yField_packR (op x y n : Nibble) : yField (packR op x y n) = y := by
  apply BitVec.eq_of_toNat_eq; rw [toNat_yField, toNat_packR]; omega
@[simp] theorem nField_packR (op x y n : Nibble) : nField (packR op x y n) = n := by
  apply BitVec.eq_of_toNat_eq; rw [toNat_nField, toNat_packR]; omega
@[simp] theorem highByte_wordOfBytes (hi lo : Byte) : highByte (wordOfBytes hi lo) = hi := by
  apply BitVec.eq_of_toNat_eq; rw [toNat_highByte, toNat_wordOfBytes]; omega
@[simp] theorem lowByte_wordOfBytes (hi lo : Byte) : lowByte (wordOfBytes hi lo) = lo := by
  apply BitVec.eq_of_toNat_eq; rw [toNat_lowByte, toNat_wordOfBytes]; omega

/-! ### A word is its fields -/

theorem packA_fields (w : Word) : packA (opField w) (nnnField w) = w := by
  apply BitVec.eq_of_toNat_eq; rw [toNat_packA, toNat_opField, toNat_nnnField]; omega

theorem packI_fields (w : Word) : packI (opField w) (xField w) (nnField w) = w := by
  apply BitVec.eq_of_toNat_eq; rw [toNat_packI, toNat_opField, toNat_xField, toNat_nnField]; omega

theorem packR_fields (w : Word) : packR (opField w) (xField w) (yField w) (nField w) = w := by
  apply BitVec.eq_of_toNat_eq; rw [toNat_packR, toNat_opField, toNat_xField, toNat_yField, toNat_nField]; omega

theorem wordOfBytes_bytes (w : Word) : wordOfBytes (highByte w) (lowByte w) = w := by
  apply BitVec.eq_of_toNat_eq; rw [toNat_wordOfBytes, toNat_highByte, toNat_lowByte]; omega

/-! ### What the masks of the opcode table select -/

theorem getLsbD_packA (op : Nibble) (nnn : Imm12) (k : Nat) :
    (packA op nnn).getLsbD k = if k < 12 then nnn.getLsbD k else op.getLsbD (k - 12) := BitVec.getLsbD_append

theorem getLsbD_packI (op x : Nibble) (nn : Byte) (k : Nat) : (packI op x nn).getLsbD k =
    if k < 8 then nn.getLsbD k else if k - 8 < 4 then x.getLsbD (k - 8) else op.getLsbD (k - 8 - 4) := by
  rw [← BitVec.getLsbD_append]; exact BitVec.getLsbD_append

theorem getLsbD_packR (op x y n : Nibble) (k : Nat) : (packR op x y n).getLsbD k =
    if k < 4 then n.getLsbD k else if k - 4 < 4 then y.getLsbD (k - 4)
    else if k - 4 - 4 < 4 then x.getLsbD (k - 4 - 4) else op.getLsbD (k - 4 - 4 - 4) := by
  rw [← BitVec.getLsbD_append, ← BitVec.getLsbD_append]; exact BitVec.getLsbD_append

/-- The mask 0xF000 looks at `OP`. -/
theorem and_maskOp (w : Word) : w &&& 0xF000#16 = packA (opField w) 0x000#12 := by
  apply BitVec.eq_of_getLsbD_eq; intro k hk
  rw [BitVec.getLsbD_and, getLsbD_packA]
  interval_cases k <;> simp [opField]

/-- The mask 0xF00F looks at `OP` and `N`. -/
theorem and_maskOpN (w : Word) : w &&& 0xF00F#16 = packR (opField w) 0x0#4 0x0#4 (nField w) := by
  apply BitVec.eq_of_getLsbD_eq; intro k hk
  rw [BitVec.getLsbD_and, getLsbD_packR]
  interval_cases k <;> simp [opField, nField]

/-- The mask 0xF0FF looks at `OP` and `NN`. -/
theorem and_maskOpNn (w : Word) : w &&& 0xF0FF#16 = packI (opField w) 0x0#4 (nnField w) := by
  apply BitVec.eq_of_getLsbD_eq; intro k hk
  rw [BitVec.getLsbD_and, getLsbD_packI]
  interval_cases k <;> simp [opField, nnField]

theorem packA_inj {op op' : Nibble} {a a' : Imm12} : packA op a = packA op' a' ↔ op = op' ∧ a = a' :=
  ⟨fun h => ⟨by simpa using congrArg opField h, by simpa using congrArg nnnField h⟩, by rintro ⟨rfl, rfl⟩; rfl⟩

theorem packI_inj {op op' x x' : Nibble} {a a' : Byte} :
    packI op x a = packI op' x' a' ↔ op = op' ∧ x = x' ∧ a = a' :=
  ⟨fun h => ⟨by simpa using congrArg opField h, by simpa using congrArg xField h, by simpa using congrArg nnField h⟩,
    by rintro ⟨rfl, rfl, rfl⟩; rfl⟩

theorem packR_inj {op op' x x' y y' n n' : Nibble} :
    packR op x y n = packR op' x' y' n' ↔ op = op' ∧ x = x' ∧ y = y' ∧ n = n' :=
  ⟨fun h => ⟨by simpa using congrArg opField h, by simpa using congrArg xField h, by simpa using congrArg yField h,
    by simpa using congrArg nField h⟩, by rintro ⟨rfl, rfl, rfl, rfl⟩; rfl⟩

/-! ### What a row of the table selects, by its mask -/

theorem selects_maskAll {r : OpcodeRow} {w : Word} (hm : r.mask = 0xFFFF#16) : r.selects w = decide (w = r.bits) := by
  rw [OpcodeRow.selects, hm, show (0xFFFF#16) = BitVec.allOnes 16 by decide, BitVec.and_allOnes, Bool.eq_iff_iff]
  simp

theorem selects_maskOp {r : OpcodeRow} {w : Word} (hm : r.mask = 0xF000#16) (hb : r.bits = packA (opField r.bits) 0) :
    r.selects w = decide (opField w = opField r.bits) := by
  rw [OpcodeRow.selects, hm, hb, and_maskOp, Bool.eq_iff_iff]; simp [packA_inj]

theorem selects_maskOpN {r : OpcodeRow} {w : Word} (hm : r.mask = 0xF00F#16)
    (hb : r.bits = packR (opField r.bits) 0 0 (nField r.bits)) :
    r.selects w = decide (opField w = opField r.bits ∧ nField w = nField r.bits) := by
  rw [OpcodeRow.selects, hm, hb, and_maskOpN, Bool.eq_iff_iff]; simp [packR_inj]

theorem selects_maskOpNn {r : OpcodeRow} {w : Word} (hm : r.mask = 0xF0FF#16)
    (hb : r.bits = packI (opField r.bits) 0 (nnField r.bits)) :
    r.selects w = decide (opField w = opField r.bits ∧ nnField w = nnField r.bits) := by
  rw [OpcodeRow.selects, hm, hb, and_maskOpNn, Bool.eq_iff_iff]; simp [packI_inj]

end Sys2Proof
end

