-- ==== Sys2Proof/Laws/Memory.lean ====
section
/-! SUPPORT. The laws of memory: a read after a write, the canonical form is kept by every operation, and what a
program image reads as. -/

namespace Sys2Proof.Machine

/-- Every address `m` lists is above `a`. -/
def Memory.above (a : Nat) (m : Memory) : Prop := ∀ c ∈ m, a < c.1

theorem Memory.read_of_above {m : Memory} {a : Nat} (h : Memory.above a m) : m.read a = Memory.unlisted a := by
  induction m with
  | nil => rfl
  | cons c rest ih =>
    have hc : a < c.1 := h c (by simp)
    simp only [Memory.read, if_neg (Nat.ne_of_lt hc)]
    exact ih fun d hd => h d (by simp [hd])

theorem Memory.wf_nil : Memory.wf [] := by simp [Memory.wf]

theorem Memory.wf_tail {c : Host.Cell} {m : Memory} (h : Memory.wf (c :: m)) : Memory.wf m :=
  ⟨(List.pairwise_cons.mp h.1).2, fun d hd => h.2 d (by simp [hd])⟩

theorem Memory.above_tail {c : Host.Cell} {m : Memory} (h : Memory.wf (c :: m)) : Memory.above c.1 m :=
  (List.pairwise_cons.mp h.1).1

/-- Reading after a write of one byte. -/
theorem Memory.read_write {m : Memory} (h : Memory.wf m) (a b : Nat) (x : Byte) :
    (m.write a x).read b = if b = a then x else m.read b := by
  induction m with
  | nil =>
    by_cases hx : x = Memory.unlisted a <;> by_cases hb : b = a <;> simp [Memory.write, Memory.read, hx, hb]
  | cons c rest ih =>
    obtain ⟨k, y⟩ := c
    have hup : Memory.above k rest := Memory.above_tail h
    rcases lt_trichotomy a k with hlt | heq | hgt
    · have hab : Memory.above a ((k, y) :: rest) := by
        intro d hd
        rcases List.mem_cons.mp hd with rfl | hd
        · exact hlt
        · exact hlt.trans (hup d hd)
      have hr := Memory.read_of_above hab
      by_cases hx : x = Memory.unlisted a
      · simp only [Memory.write, if_pos hlt, if_pos hx]
        split
        · next hb => rw [hb, hr, hx]
        · rfl
      · simp only [Memory.write, if_pos hlt, if_neg hx, Memory.read]
    · subst heq
      have hr := Memory.read_of_above hup
      by_cases hx : x = Memory.unlisted a
      · simp only [Memory.write, lt_irrefl, if_false, if_true, if_pos hx, Memory.read]
        split
        · next hb => rw [hb, hr, hx]
        · rfl
      · simp only [Memory.write, lt_irrefl, if_false, if_true, if_neg hx, Memory.read]
        split <;> rfl
    · have h1 : ¬ a < k := Nat.not_lt.mpr hgt.le
      have h2 : ¬ a = k := Nat.ne_of_gt hgt
      simp only [Memory.write, if_neg h1, if_neg h2, Memory.read]
      split
      · next hb => rw [if_neg (by omega)]
      · exact ih (Memory.wf_tail h)

theorem Memory.above_write {m : Memory} {a k : Nat} (h : Memory.above k m) (ha : k < a) (x : Byte) :
    Memory.above k (m.write a x) := by
  induction m with
  | nil =>
    intro c hc
    simp only [Memory.write] at hc
    split at hc
    · simp at hc
    · simp only [List.mem_singleton] at hc
      subst hc
      exact ha
  | cons d rest ih =>
    have hd : k < d.1 := h d (by simp)
    have hrest : Memory.above k rest := fun e he => h e (by simp [he])
    intro c hc
    simp only [Memory.write] at hc
    split at hc
    · split at hc
      · exact h c hc
      · rcases List.mem_cons.mp hc with rfl | hc
        · exact ha
        · exact h c hc
    · split at hc
      · split at hc
        · exact hrest c hc
        · rcases List.mem_cons.mp hc with rfl | hc
          · exact ha
          · exact hrest c hc
      · rcases List.mem_cons.mp hc with rfl | hc
        · exact hd
        · exact ih hrest c hc

/-- The canonical form of a list with a new least entry. -/
theorem Memory.wf_cons {c : Host.Cell} {m : Memory} (h : Memory.wf m) (hab : Memory.above c.1 m)
    (hc : c.1 < memSize) (hx : c.2 ≠ Memory.unlisted c.1) : Memory.wf (c :: m) :=
  ⟨List.pairwise_cons.mpr ⟨hab, h.1⟩, by
    intro d hd
    rcases List.mem_cons.mp hd with rfl | hd
    · exact ⟨hc, hx⟩
    · exact h.2 d hd⟩

/-- A write inside `MEM` keeps the canonical form. -/
theorem Memory.wf_write {m : Memory} (h : Memory.wf m) {a : Nat} (ha : a < memSize) (x : Byte) :
    Memory.wf (m.write a x) := by
  induction m with
  | nil =>
    simp only [Memory.write]
    split
    · exact h
    · next hx => exact Memory.wf_cons h (by intro c hc; simp at hc) ha hx
  | cons d rest ih =>
    have hd := h.2 d (by simp)
    have hup := Memory.above_tail h
    have hrest := Memory.wf_tail h
    simp only [Memory.write]
    split
    · next hlt =>
      split
      · exact h
      · next hx =>
        refine Memory.wf_cons h ?_ ha hx
        intro e he
        rcases List.mem_cons.mp he with rfl | he
        · exact hlt
        · exact lt_trans hlt (hup e he)
    · next hlt =>
      split
      · next heq =>
        split
        · exact hrest
        · next hx => exact Memory.wf_cons hrest (by simpa [heq] using hup) ha hx
      · next hne =>
        exact Memory.wf_cons (ih hrest) (Memory.above_write hup (by omega) x) hd.1 hd.2

/-- A run of writes inside `MEM` keeps the canonical form. -/
theorem Memory.wf_writeBytes {m : Memory} (h : Memory.wf m) {a : Nat} {xs : List Byte}
    (hx : a + xs.length ≤ memSize) : Memory.wf (m.writeBytes a xs) := by
  induction xs generalizing m a with
  | nil => exact h
  | cons x rest ih =>
    simp only [List.length_cons] at hx
    exact ih (Memory.wf_write h (by omega) x) (by omega)

/-- Reading after a run of writes: the bytes written, and every other address as before. -/
theorem Memory.read_writeBytes {m : Memory} (h : Memory.wf m) {a : Nat} {xs : List Byte}
    (hx : a + xs.length ≤ memSize) (b : Nat) :
    (m.writeBytes a xs).read b = if a ≤ b ∧ b < a + xs.length then xs.getD (b - a) 0 else m.read b := by
  induction xs generalizing m a with
  | nil =>
    have : ¬ (a ≤ b ∧ b < a + ([] : List Byte).length) := by simp
    rw [if_neg this]; rfl
  | cons x rest ih =>
    simp only [List.length_cons] at hx
    rw [Memory.writeBytes, ih (Memory.wf_write h (by omega) x) (by omega), Memory.read_write h]
    simp only [List.length_cons]
    by_cases hba : b = a
    · subst hba
      rw [if_neg (by omega), if_pos rfl, if_pos (by omega)]
      simp
    · by_cases hin : a + 1 ≤ b ∧ b < a + 1 + rest.length
      · rw [if_pos hin, if_pos (by omega)]
        have : b - a = (b - (a + 1)) + 1 := by omega
        rw [this]; simp
      · rw [if_neg hin, if_neg hba, if_neg (by omega)]

@[simp] theorem Memory.length_readBytes (m : Memory) (a n : Nat) : (m.readBytes a n).length = n := by
  simp [Memory.readBytes]

theorem Memory.getElem_readBytes (m : Memory) (a n k : Nat) (h : k < (m.readBytes a n).length) :
    (m.readBytes a n)[k] = m.read (a + k) := by
  simp [Memory.readBytes]

/-! ### A program image -/

theorem Memory.above_image {k a : Nat} (h : k < a) (xs : List Byte) : Memory.above k (Memory.image a xs) := by
  induction xs generalizing a with
  | nil => intro c hc; simp [Memory.image] at hc
  | cons x rest ih =>
    intro c hc
    simp only [Memory.image] at hc
    split at hc
    · exact ih (by omega) c hc
    · rcases List.mem_cons.mp hc with rfl | hc
      · exact h
      · exact ih (by omega) c hc

theorem Memory.wf_image {a : Nat} {xs : List Byte} (h : a + xs.length ≤ memSize) :
    Memory.wf (Memory.image a xs) := by
  induction xs generalizing a with
  | nil => exact Memory.wf_nil
  | cons x rest ih =>
    simp only [List.length_cons] at h
    simp only [Memory.image]
    split
    · exact ih (by omega)
    · next hx => exact Memory.wf_cons (ih (by omega)) (Memory.above_image (by omega) rest) (by simp; omega) hx

/-- What an image reads as: its bytes in its range, the reset image elsewhere. -/
theorem Memory.read_image (a : Nat) (xs : List Byte) (b : Nat) :
    (Memory.image a xs).read b =
      if a ≤ b ∧ b < a + xs.length then xs.getD (b - a) 0 else Memory.unlisted b := by
  induction xs generalizing a with
  | nil =>
    have : ¬ (a ≤ b ∧ b < a + ([] : List Byte).length) := by simp
    rw [if_neg this]; rfl
  | cons x rest ih =>
    have hstep : (Memory.image a (x :: rest)).read b =
        if b = a then x else (Memory.image (a + 1) rest).read b := by
      simp only [Memory.image]
      split
      · next hx =>
        split
        · next hb =>
          subst hb
          rw [Memory.read_of_above (Memory.above_image (Nat.lt_succ_self _) rest), hx]
        · rfl
      · rfl
    rw [hstep, ih]
    simp only [List.length_cons]
    by_cases hba : b = a
    · subst hba
      rw [if_pos rfl, if_pos (by omega)]
      simp
    · rw [if_neg hba]
      by_cases hin : a + 1 ≤ b ∧ b < a + 1 + rest.length
      · rw [if_pos hin, if_pos (by omega)]
        have : b - a = (b - (a + 1)) + 1 := by omega
        rw [this]; simp
      · rw [if_neg hin, if_neg (by omega)]

end Sys2Proof.Machine
end

