-- ==== Sys2Proof/Laws/State.lean ====
section
/-! SUPPORT. One lemma per field per update of the state, true by rfl, so that no proof unfolds a record update. -/

namespace Sys2Proof.Machine

variable (s : State)

/-! ### `writeV` -/

@[simp] theorem writeV_v (x : Nibble) (b : Byte) : (s.writeV x b).v = s.v.set x.toNat b x.isLt := rfl
@[simp] theorem writeV_i (x : Nibble) (b : Byte) : (s.writeV x b).i = s.i := rfl
@[simp] theorem writeV_pc (x : Nibble) (b : Byte) : (s.writeV x b).pc = s.pc := rfl
@[simp] theorem writeV_stack (x : Nibble) (b : Byte) : (s.writeV x b).stack = s.stack := rfl
@[simp] theorem writeV_sp (x : Nibble) (b : Byte) : (s.writeV x b).sp = s.sp := rfl
@[simp] theorem writeV_dt (x : Nibble) (b : Byte) : (s.writeV x b).dt = s.dt := rfl
@[simp] theorem writeV_st (x : Nibble) (b : Byte) : (s.writeV x b).st = s.st := rfl
@[simp] theorem writeV_run (x : Nibble) (b : Byte) : (s.writeV x b).run = s.run := rfl
@[simp] theorem writeV_ir (x : Nibble) (b : Byte) : (s.writeV x b).ir = s.ir := rfl
@[simp] theorem writeV_redraw (x : Nibble) (b : Byte) : (s.writeV x b).redraw = s.redraw := rfl
@[simp] theorem writeV_faultCause (x : Nibble) (b : Byte) : (s.writeV x b).faultCause = s.faultCause := rfl
@[simp] theorem writeV_faultInstr (x : Nibble) (b : Byte) : (s.writeV x b).faultInstr = s.faultInstr := rfl
@[simp] theorem writeV_faultPc (x : Nibble) (b : Byte) : (s.writeV x b).faultPc = s.faultPc := rfl
@[simp] theorem writeV_mem (x : Nibble) (b : Byte) : (s.writeV x b).mem = s.mem := rfl
@[simp] theorem writeV_fb (x : Nibble) (b : Byte) : (s.writeV x b).fb = s.fb := rfl
@[simp] theorem writeV_keys (x : Nibble) (b : Byte) : (s.writeV x b).keys = s.keys := rfl
@[simp] theorem writeV_rnd (x : Nibble) (b : Byte) : (s.writeV x b).rnd = s.rnd := rfl
@[simp] theorem writeV_draws (x : Nibble) (b : Byte) : (s.writeV x b).draws = s.draws := rfl
@[simp] theorem writeV_schedule (x : Nibble) (b : Byte) : (s.writeV x b).schedule = s.schedule := rfl
@[simp] theorem writeV_frames (x : Nibble) (b : Byte) : (s.writeV x b).frames = s.frames := rfl
@[simp] theorem writeV_dataAddress (x : Nibble) (b : Byte) : (s.writeV x b).dataAddress = s.dataAddress := rfl

/-! ### `writeFlag` -/

@[simp] theorem writeFlag_v (f : Byte) : (s.writeFlag f).v = s.v.set 15 f (by decide) := rfl
@[simp] theorem writeFlag_i (f : Byte) : (s.writeFlag f).i = s.i := rfl
@[simp] theorem writeFlag_pc (f : Byte) : (s.writeFlag f).pc = s.pc := rfl
@[simp] theorem writeFlag_stack (f : Byte) : (s.writeFlag f).stack = s.stack := rfl
@[simp] theorem writeFlag_sp (f : Byte) : (s.writeFlag f).sp = s.sp := rfl
@[simp] theorem writeFlag_dt (f : Byte) : (s.writeFlag f).dt = s.dt := rfl
@[simp] theorem writeFlag_st (f : Byte) : (s.writeFlag f).st = s.st := rfl
@[simp] theorem writeFlag_run (f : Byte) : (s.writeFlag f).run = s.run := rfl
@[simp] theorem writeFlag_ir (f : Byte) : (s.writeFlag f).ir = s.ir := rfl
@[simp] theorem writeFlag_redraw (f : Byte) : (s.writeFlag f).redraw = s.redraw := rfl
@[simp] theorem writeFlag_faultCause (f : Byte) : (s.writeFlag f).faultCause = s.faultCause := rfl
@[simp] theorem writeFlag_faultInstr (f : Byte) : (s.writeFlag f).faultInstr = s.faultInstr := rfl
@[simp] theorem writeFlag_faultPc (f : Byte) : (s.writeFlag f).faultPc = s.faultPc := rfl
@[simp] theorem writeFlag_mem (f : Byte) : (s.writeFlag f).mem = s.mem := rfl
@[simp] theorem writeFlag_fb (f : Byte) : (s.writeFlag f).fb = s.fb := rfl
@[simp] theorem writeFlag_keys (f : Byte) : (s.writeFlag f).keys = s.keys := rfl
@[simp] theorem writeFlag_rnd (f : Byte) : (s.writeFlag f).rnd = s.rnd := rfl
@[simp] theorem writeFlag_draws (f : Byte) : (s.writeFlag f).draws = s.draws := rfl
@[simp] theorem writeFlag_schedule (f : Byte) : (s.writeFlag f).schedule = s.schedule := rfl
@[simp] theorem writeFlag_frames (f : Byte) : (s.writeFlag f).frames = s.frames := rfl
@[simp] theorem writeFlag_dataAddress (f : Byte) : (s.writeFlag f).dataAddress = s.dataAddress := rfl

/-! ### `writeI` -/

@[simp] theorem writeI_v (a : Word) : (s.writeI a).v = s.v := rfl
@[simp] theorem writeI_i (a : Word) : (s.writeI a).i = a := rfl
@[simp] theorem writeI_pc (a : Word) : (s.writeI a).pc = s.pc := rfl
@[simp] theorem writeI_stack (a : Word) : (s.writeI a).stack = s.stack := rfl
@[simp] theorem writeI_sp (a : Word) : (s.writeI a).sp = s.sp := rfl
@[simp] theorem writeI_dt (a : Word) : (s.writeI a).dt = s.dt := rfl
@[simp] theorem writeI_st (a : Word) : (s.writeI a).st = s.st := rfl
@[simp] theorem writeI_run (a : Word) : (s.writeI a).run = s.run := rfl
@[simp] theorem writeI_ir (a : Word) : (s.writeI a).ir = s.ir := rfl
@[simp] theorem writeI_redraw (a : Word) : (s.writeI a).redraw = s.redraw := rfl
@[simp] theorem writeI_faultCause (a : Word) : (s.writeI a).faultCause = s.faultCause := rfl
@[simp] theorem writeI_faultInstr (a : Word) : (s.writeI a).faultInstr = s.faultInstr := rfl
@[simp] theorem writeI_faultPc (a : Word) : (s.writeI a).faultPc = s.faultPc := rfl
@[simp] theorem writeI_mem (a : Word) : (s.writeI a).mem = s.mem := rfl
@[simp] theorem writeI_fb (a : Word) : (s.writeI a).fb = s.fb := rfl
@[simp] theorem writeI_keys (a : Word) : (s.writeI a).keys = s.keys := rfl
@[simp] theorem writeI_rnd (a : Word) : (s.writeI a).rnd = s.rnd := rfl
@[simp] theorem writeI_draws (a : Word) : (s.writeI a).draws = s.draws := rfl
@[simp] theorem writeI_schedule (a : Word) : (s.writeI a).schedule = s.schedule := rfl
@[simp] theorem writeI_frames (a : Word) : (s.writeI a).frames = s.frames := rfl
@[simp] theorem writeI_readV (a : Word) (y : Nibble) : (s.writeI a).readV y = s.readV y := rfl

/-! ### `advance` -/

@[simp] theorem advance_v : (s.advance).v = s.v := rfl
@[simp] theorem advance_i : (s.advance).i = s.i := rfl
@[simp] theorem advance_pc : (s.advance).pc = s.pc + 2#16 := rfl
@[simp] theorem advance_stack : (s.advance).stack = s.stack := rfl
@[simp] theorem advance_sp : (s.advance).sp = s.sp := rfl
@[simp] theorem advance_dt : (s.advance).dt = s.dt := rfl
@[simp] theorem advance_st : (s.advance).st = s.st := rfl
@[simp] theorem advance_run : (s.advance).run = s.run := rfl
@[simp] theorem advance_ir : (s.advance).ir = s.ir := rfl
@[simp] theorem advance_redraw : (s.advance).redraw = s.redraw := rfl
@[simp] theorem advance_faultCause : (s.advance).faultCause = s.faultCause := rfl
@[simp] theorem advance_faultInstr : (s.advance).faultInstr = s.faultInstr := rfl
@[simp] theorem advance_faultPc : (s.advance).faultPc = s.faultPc := rfl
@[simp] theorem advance_mem : (s.advance).mem = s.mem := rfl
@[simp] theorem advance_fb : (s.advance).fb = s.fb := rfl
@[simp] theorem advance_keys : (s.advance).keys = s.keys := rfl
@[simp] theorem advance_rnd : (s.advance).rnd = s.rnd := rfl
@[simp] theorem advance_draws : (s.advance).draws = s.draws := rfl
@[simp] theorem advance_schedule : (s.advance).schedule = s.schedule := rfl
@[simp] theorem advance_frames : (s.advance).frames = s.frames := rfl
@[simp] theorem advance_readV (y : Nibble) : (s.advance).readV y = s.readV y := rfl
@[simp] theorem advance_dataAddress : (s.advance).dataAddress = s.dataAddress := rfl

/-! ### `advanceSkip` -/

@[simp] theorem advanceSkip_v : (s.advanceSkip).v = s.v := rfl
@[simp] theorem advanceSkip_i : (s.advanceSkip).i = s.i := rfl
@[simp] theorem advanceSkip_pc : (s.advanceSkip).pc = s.pc + 4#16 := rfl
@[simp] theorem advanceSkip_stack : (s.advanceSkip).stack = s.stack := rfl
@[simp] theorem advanceSkip_sp : (s.advanceSkip).sp = s.sp := rfl
@[simp] theorem advanceSkip_dt : (s.advanceSkip).dt = s.dt := rfl
@[simp] theorem advanceSkip_st : (s.advanceSkip).st = s.st := rfl
@[simp] theorem advanceSkip_run : (s.advanceSkip).run = s.run := rfl
@[simp] theorem advanceSkip_ir : (s.advanceSkip).ir = s.ir := rfl
@[simp] theorem advanceSkip_redraw : (s.advanceSkip).redraw = s.redraw := rfl
@[simp] theorem advanceSkip_faultCause : (s.advanceSkip).faultCause = s.faultCause := rfl
@[simp] theorem advanceSkip_faultInstr : (s.advanceSkip).faultInstr = s.faultInstr := rfl
@[simp] theorem advanceSkip_faultPc : (s.advanceSkip).faultPc = s.faultPc := rfl
@[simp] theorem advanceSkip_mem : (s.advanceSkip).mem = s.mem := rfl
@[simp] theorem advanceSkip_fb : (s.advanceSkip).fb = s.fb := rfl
@[simp] theorem advanceSkip_keys : (s.advanceSkip).keys = s.keys := rfl
@[simp] theorem advanceSkip_rnd : (s.advanceSkip).rnd = s.rnd := rfl
@[simp] theorem advanceSkip_draws : (s.advanceSkip).draws = s.draws := rfl
@[simp] theorem advanceSkip_schedule : (s.advanceSkip).schedule = s.schedule := rfl
@[simp] theorem advanceSkip_frames : (s.advanceSkip).frames = s.frames := rfl
@[simp] theorem advanceSkip_readV (y : Nibble) : (s.advanceSkip).readV y = s.readV y := rfl
@[simp] theorem advanceSkip_dataAddress : (s.advanceSkip).dataAddress = s.dataAddress := rfl

/-! ### `jump` -/

@[simp] theorem jump_v (a : Word) : (s.jump a).v = s.v := rfl
@[simp] theorem jump_i (a : Word) : (s.jump a).i = s.i := rfl
@[simp] theorem jump_pc (a : Word) : (s.jump a).pc = a := rfl
@[simp] theorem jump_stack (a : Word) : (s.jump a).stack = s.stack := rfl
@[simp] theorem jump_sp (a : Word) : (s.jump a).sp = s.sp := rfl
@[simp] theorem jump_dt (a : Word) : (s.jump a).dt = s.dt := rfl
@[simp] theorem jump_st (a : Word) : (s.jump a).st = s.st := rfl
@[simp] theorem jump_run (a : Word) : (s.jump a).run = s.run := rfl
@[simp] theorem jump_ir (a : Word) : (s.jump a).ir = s.ir := rfl
@[simp] theorem jump_redraw (a : Word) : (s.jump a).redraw = s.redraw := rfl
@[simp] theorem jump_faultCause (a : Word) : (s.jump a).faultCause = s.faultCause := rfl
@[simp] theorem jump_faultInstr (a : Word) : (s.jump a).faultInstr = s.faultInstr := rfl
@[simp] theorem jump_faultPc (a : Word) : (s.jump a).faultPc = s.faultPc := rfl
@[simp] theorem jump_mem (a : Word) : (s.jump a).mem = s.mem := rfl
@[simp] theorem jump_fb (a : Word) : (s.jump a).fb = s.fb := rfl
@[simp] theorem jump_keys (a : Word) : (s.jump a).keys = s.keys := rfl
@[simp] theorem jump_rnd (a : Word) : (s.jump a).rnd = s.rnd := rfl
@[simp] theorem jump_draws (a : Word) : (s.jump a).draws = s.draws := rfl
@[simp] theorem jump_schedule (a : Word) : (s.jump a).schedule = s.schedule := rfl
@[simp] theorem jump_frames (a : Word) : (s.jump a).frames = s.frames := rfl
@[simp] theorem jump_readV (a : Word) (y : Nibble) : (s.jump a).readV y = s.readV y := rfl
@[simp] theorem jump_dataAddress (a : Word) : (s.jump a).dataAddress = s.dataAddress := rfl

/-! ### `writeDt` -/

@[simp] theorem writeDt_v (b : Byte) : (s.writeDt b).v = s.v := rfl
@[simp] theorem writeDt_i (b : Byte) : (s.writeDt b).i = s.i := rfl
@[simp] theorem writeDt_pc (b : Byte) : (s.writeDt b).pc = s.pc := rfl
@[simp] theorem writeDt_stack (b : Byte) : (s.writeDt b).stack = s.stack := rfl
@[simp] theorem writeDt_sp (b : Byte) : (s.writeDt b).sp = s.sp := rfl
@[simp] theorem writeDt_dt (b : Byte) : (s.writeDt b).dt = b := rfl
@[simp] theorem writeDt_st (b : Byte) : (s.writeDt b).st = s.st := rfl
@[simp] theorem writeDt_run (b : Byte) : (s.writeDt b).run = s.run := rfl
@[simp] theorem writeDt_ir (b : Byte) : (s.writeDt b).ir = s.ir := rfl
@[simp] theorem writeDt_redraw (b : Byte) : (s.writeDt b).redraw = s.redraw := rfl
@[simp] theorem writeDt_faultCause (b : Byte) : (s.writeDt b).faultCause = s.faultCause := rfl
@[simp] theorem writeDt_faultInstr (b : Byte) : (s.writeDt b).faultInstr = s.faultInstr := rfl
@[simp] theorem writeDt_faultPc (b : Byte) : (s.writeDt b).faultPc = s.faultPc := rfl
@[simp] theorem writeDt_mem (b : Byte) : (s.writeDt b).mem = s.mem := rfl
@[simp] theorem writeDt_fb (b : Byte) : (s.writeDt b).fb = s.fb := rfl
@[simp] theorem writeDt_keys (b : Byte) : (s.writeDt b).keys = s.keys := rfl
@[simp] theorem writeDt_rnd (b : Byte) : (s.writeDt b).rnd = s.rnd := rfl
@[simp] theorem writeDt_draws (b : Byte) : (s.writeDt b).draws = s.draws := rfl
@[simp] theorem writeDt_schedule (b : Byte) : (s.writeDt b).schedule = s.schedule := rfl
@[simp] theorem writeDt_frames (b : Byte) : (s.writeDt b).frames = s.frames := rfl
@[simp] theorem writeDt_readV (b : Byte) (y : Nibble) : (s.writeDt b).readV y = s.readV y := rfl
@[simp] theorem writeDt_dataAddress (b : Byte) : (s.writeDt b).dataAddress = s.dataAddress := rfl

/-! ### `writeSt` -/

@[simp] theorem writeSt_v (b : Byte) : (s.writeSt b).v = s.v := rfl
@[simp] theorem writeSt_i (b : Byte) : (s.writeSt b).i = s.i := rfl
@[simp] theorem writeSt_pc (b : Byte) : (s.writeSt b).pc = s.pc := rfl
@[simp] theorem writeSt_stack (b : Byte) : (s.writeSt b).stack = s.stack := rfl
@[simp] theorem writeSt_sp (b : Byte) : (s.writeSt b).sp = s.sp := rfl
@[simp] theorem writeSt_dt (b : Byte) : (s.writeSt b).dt = s.dt := rfl
@[simp] theorem writeSt_st (b : Byte) : (s.writeSt b).st = b := rfl
@[simp] theorem writeSt_run (b : Byte) : (s.writeSt b).run = s.run := rfl
@[simp] theorem writeSt_ir (b : Byte) : (s.writeSt b).ir = s.ir := rfl
@[simp] theorem writeSt_redraw (b : Byte) : (s.writeSt b).redraw = s.redraw := rfl
@[simp] theorem writeSt_faultCause (b : Byte) : (s.writeSt b).faultCause = s.faultCause := rfl
@[simp] theorem writeSt_faultInstr (b : Byte) : (s.writeSt b).faultInstr = s.faultInstr := rfl
@[simp] theorem writeSt_faultPc (b : Byte) : (s.writeSt b).faultPc = s.faultPc := rfl
@[simp] theorem writeSt_mem (b : Byte) : (s.writeSt b).mem = s.mem := rfl
@[simp] theorem writeSt_fb (b : Byte) : (s.writeSt b).fb = s.fb := rfl
@[simp] theorem writeSt_keys (b : Byte) : (s.writeSt b).keys = s.keys := rfl
@[simp] theorem writeSt_rnd (b : Byte) : (s.writeSt b).rnd = s.rnd := rfl
@[simp] theorem writeSt_draws (b : Byte) : (s.writeSt b).draws = s.draws := rfl
@[simp] theorem writeSt_schedule (b : Byte) : (s.writeSt b).schedule = s.schedule := rfl
@[simp] theorem writeSt_frames (b : Byte) : (s.writeSt b).frames = s.frames := rfl
@[simp] theorem writeSt_readV (b : Byte) (y : Nibble) : (s.writeSt b).readV y = s.readV y := rfl
@[simp] theorem writeSt_dataAddress (b : Byte) : (s.writeSt b).dataAddress = s.dataAddress := rfl

/-! ### `writeRun` -/

@[simp] theorem writeRun_v (r : RunState) : (s.writeRun r).v = s.v := rfl
@[simp] theorem writeRun_i (r : RunState) : (s.writeRun r).i = s.i := rfl
@[simp] theorem writeRun_pc (r : RunState) : (s.writeRun r).pc = s.pc := rfl
@[simp] theorem writeRun_stack (r : RunState) : (s.writeRun r).stack = s.stack := rfl
@[simp] theorem writeRun_sp (r : RunState) : (s.writeRun r).sp = s.sp := rfl
@[simp] theorem writeRun_dt (r : RunState) : (s.writeRun r).dt = s.dt := rfl
@[simp] theorem writeRun_st (r : RunState) : (s.writeRun r).st = s.st := rfl
@[simp] theorem writeRun_run (r : RunState) : (s.writeRun r).run = r := rfl
@[simp] theorem writeRun_ir (r : RunState) : (s.writeRun r).ir = s.ir := rfl
@[simp] theorem writeRun_redraw (r : RunState) : (s.writeRun r).redraw = s.redraw := rfl
@[simp] theorem writeRun_faultCause (r : RunState) : (s.writeRun r).faultCause = s.faultCause := rfl
@[simp] theorem writeRun_faultInstr (r : RunState) : (s.writeRun r).faultInstr = s.faultInstr := rfl
@[simp] theorem writeRun_faultPc (r : RunState) : (s.writeRun r).faultPc = s.faultPc := rfl
@[simp] theorem writeRun_mem (r : RunState) : (s.writeRun r).mem = s.mem := rfl
@[simp] theorem writeRun_fb (r : RunState) : (s.writeRun r).fb = s.fb := rfl
@[simp] theorem writeRun_keys (r : RunState) : (s.writeRun r).keys = s.keys := rfl
@[simp] theorem writeRun_rnd (r : RunState) : (s.writeRun r).rnd = s.rnd := rfl
@[simp] theorem writeRun_draws (r : RunState) : (s.writeRun r).draws = s.draws := rfl
@[simp] theorem writeRun_schedule (r : RunState) : (s.writeRun r).schedule = s.schedule := rfl
@[simp] theorem writeRun_frames (r : RunState) : (s.writeRun r).frames = s.frames := rfl
@[simp] theorem writeRun_readV (r : RunState) (y : Nibble) : (s.writeRun r).readV y = s.readV y := rfl
@[simp] theorem writeRun_dataAddress (r : RunState) : (s.writeRun r).dataAddress = s.dataAddress := rfl

/-! ### `writeIr` -/

@[simp] theorem writeIr_v (w : Word) : (s.writeIr w).v = s.v := rfl
@[simp] theorem writeIr_i (w : Word) : (s.writeIr w).i = s.i := rfl
@[simp] theorem writeIr_pc (w : Word) : (s.writeIr w).pc = s.pc := rfl
@[simp] theorem writeIr_stack (w : Word) : (s.writeIr w).stack = s.stack := rfl
@[simp] theorem writeIr_sp (w : Word) : (s.writeIr w).sp = s.sp := rfl
@[simp] theorem writeIr_dt (w : Word) : (s.writeIr w).dt = s.dt := rfl
@[simp] theorem writeIr_st (w : Word) : (s.writeIr w).st = s.st := rfl
@[simp] theorem writeIr_run (w : Word) : (s.writeIr w).run = s.run := rfl
@[simp] theorem writeIr_ir (w : Word) : (s.writeIr w).ir = w := rfl
@[simp] theorem writeIr_redraw (w : Word) : (s.writeIr w).redraw = s.redraw := rfl
@[simp] theorem writeIr_faultCause (w : Word) : (s.writeIr w).faultCause = s.faultCause := rfl
@[simp] theorem writeIr_faultInstr (w : Word) : (s.writeIr w).faultInstr = s.faultInstr := rfl
@[simp] theorem writeIr_faultPc (w : Word) : (s.writeIr w).faultPc = s.faultPc := rfl
@[simp] theorem writeIr_mem (w : Word) : (s.writeIr w).mem = s.mem := rfl
@[simp] theorem writeIr_fb (w : Word) : (s.writeIr w).fb = s.fb := rfl
@[simp] theorem writeIr_keys (w : Word) : (s.writeIr w).keys = s.keys := rfl
@[simp] theorem writeIr_rnd (w : Word) : (s.writeIr w).rnd = s.rnd := rfl
@[simp] theorem writeIr_draws (w : Word) : (s.writeIr w).draws = s.draws := rfl
@[simp] theorem writeIr_schedule (w : Word) : (s.writeIr w).schedule = s.schedule := rfl
@[simp] theorem writeIr_frames (w : Word) : (s.writeIr w).frames = s.frames := rfl
@[simp] theorem writeIr_readV (w : Word) (y : Nibble) : (s.writeIr w).readV y = s.readV y := rfl
@[simp] theorem writeIr_dataAddress (w : Word) : (s.writeIr w).dataAddress = s.dataAddress := rfl

/-! ### `writeMem` -/

@[simp] theorem writeMem_v (m : Memory) : (s.writeMem m).v = s.v := rfl
@[simp] theorem writeMem_i (m : Memory) : (s.writeMem m).i = s.i := rfl
@[simp] theorem writeMem_pc (m : Memory) : (s.writeMem m).pc = s.pc := rfl
@[simp] theorem writeMem_stack (m : Memory) : (s.writeMem m).stack = s.stack := rfl
@[simp] theorem writeMem_sp (m : Memory) : (s.writeMem m).sp = s.sp := rfl
@[simp] theorem writeMem_dt (m : Memory) : (s.writeMem m).dt = s.dt := rfl
@[simp] theorem writeMem_st (m : Memory) : (s.writeMem m).st = s.st := rfl
@[simp] theorem writeMem_run (m : Memory) : (s.writeMem m).run = s.run := rfl
@[simp] theorem writeMem_ir (m : Memory) : (s.writeMem m).ir = s.ir := rfl
@[simp] theorem writeMem_redraw (m : Memory) : (s.writeMem m).redraw = s.redraw := rfl
@[simp] theorem writeMem_faultCause (m : Memory) : (s.writeMem m).faultCause = s.faultCause := rfl
@[simp] theorem writeMem_faultInstr (m : Memory) : (s.writeMem m).faultInstr = s.faultInstr := rfl
@[simp] theorem writeMem_faultPc (m : Memory) : (s.writeMem m).faultPc = s.faultPc := rfl
@[simp] theorem writeMem_mem (m : Memory) : (s.writeMem m).mem = m := rfl
@[simp] theorem writeMem_fb (m : Memory) : (s.writeMem m).fb = s.fb := rfl
@[simp] theorem writeMem_keys (m : Memory) : (s.writeMem m).keys = s.keys := rfl
@[simp] theorem writeMem_rnd (m : Memory) : (s.writeMem m).rnd = s.rnd := rfl
@[simp] theorem writeMem_draws (m : Memory) : (s.writeMem m).draws = s.draws := rfl
@[simp] theorem writeMem_schedule (m : Memory) : (s.writeMem m).schedule = s.schedule := rfl
@[simp] theorem writeMem_frames (m : Memory) : (s.writeMem m).frames = s.frames := rfl
@[simp] theorem writeMem_readV (m : Memory) (y : Nibble) : (s.writeMem m).readV y = s.readV y := rfl
@[simp] theorem writeMem_dataAddress (m : Memory) : (s.writeMem m).dataAddress = s.dataAddress := rfl

/-! ### `showFb` -/

@[simp] theorem showFb_v (fb : Frame) : (s.showFb fb).v = s.v := rfl
@[simp] theorem showFb_i (fb : Frame) : (s.showFb fb).i = s.i := rfl
@[simp] theorem showFb_pc (fb : Frame) : (s.showFb fb).pc = s.pc := rfl
@[simp] theorem showFb_stack (fb : Frame) : (s.showFb fb).stack = s.stack := rfl
@[simp] theorem showFb_sp (fb : Frame) : (s.showFb fb).sp = s.sp := rfl
@[simp] theorem showFb_dt (fb : Frame) : (s.showFb fb).dt = s.dt := rfl
@[simp] theorem showFb_st (fb : Frame) : (s.showFb fb).st = s.st := rfl
@[simp] theorem showFb_run (fb : Frame) : (s.showFb fb).run = s.run := rfl
@[simp] theorem showFb_ir (fb : Frame) : (s.showFb fb).ir = s.ir := rfl
@[simp] theorem showFb_redraw (fb : Frame) : (s.showFb fb).redraw = true := rfl
@[simp] theorem showFb_faultCause (fb : Frame) : (s.showFb fb).faultCause = s.faultCause := rfl
@[simp] theorem showFb_faultInstr (fb : Frame) : (s.showFb fb).faultInstr = s.faultInstr := rfl
@[simp] theorem showFb_faultPc (fb : Frame) : (s.showFb fb).faultPc = s.faultPc := rfl
@[simp] theorem showFb_mem (fb : Frame) : (s.showFb fb).mem = s.mem := rfl
@[simp] theorem showFb_fb (fb : Frame) : (s.showFb fb).fb = fb := rfl
@[simp] theorem showFb_keys (fb : Frame) : (s.showFb fb).keys = s.keys := rfl
@[simp] theorem showFb_rnd (fb : Frame) : (s.showFb fb).rnd = s.rnd := rfl
@[simp] theorem showFb_draws (fb : Frame) : (s.showFb fb).draws = s.draws := rfl
@[simp] theorem showFb_schedule (fb : Frame) : (s.showFb fb).schedule = s.schedule := rfl
@[simp] theorem showFb_frames (fb : Frame) : (s.showFb fb).frames = s.frames := rfl
@[simp] theorem showFb_readV (fb : Frame) (y : Nibble) : (s.showFb fb).readV y = s.readV y := rfl
@[simp] theorem showFb_dataAddress (fb : Frame) : (s.showFb fb).dataAddress = s.dataAddress := rfl

/-! ### `writeKeys` -/

@[simp] theorem writeKeys_v (keys : BitVec 16) : (s.writeKeys keys).v = s.v := rfl
@[simp] theorem writeKeys_i (keys : BitVec 16) : (s.writeKeys keys).i = s.i := rfl
@[simp] theorem writeKeys_pc (keys : BitVec 16) : (s.writeKeys keys).pc = s.pc := rfl
@[simp] theorem writeKeys_stack (keys : BitVec 16) : (s.writeKeys keys).stack = s.stack := rfl
@[simp] theorem writeKeys_sp (keys : BitVec 16) : (s.writeKeys keys).sp = s.sp := rfl
@[simp] theorem writeKeys_dt (keys : BitVec 16) : (s.writeKeys keys).dt = s.dt := rfl
@[simp] theorem writeKeys_st (keys : BitVec 16) : (s.writeKeys keys).st = s.st := rfl
@[simp] theorem writeKeys_run (keys : BitVec 16) : (s.writeKeys keys).run = s.run := rfl
@[simp] theorem writeKeys_ir (keys : BitVec 16) : (s.writeKeys keys).ir = s.ir := rfl
@[simp] theorem writeKeys_redraw (keys : BitVec 16) : (s.writeKeys keys).redraw = s.redraw := rfl
@[simp] theorem writeKeys_faultCause (keys : BitVec 16) : (s.writeKeys keys).faultCause = s.faultCause := rfl
@[simp] theorem writeKeys_faultInstr (keys : BitVec 16) : (s.writeKeys keys).faultInstr = s.faultInstr := rfl
@[simp] theorem writeKeys_faultPc (keys : BitVec 16) : (s.writeKeys keys).faultPc = s.faultPc := rfl
@[simp] theorem writeKeys_mem (keys : BitVec 16) : (s.writeKeys keys).mem = s.mem := rfl
@[simp] theorem writeKeys_fb (keys : BitVec 16) : (s.writeKeys keys).fb = s.fb := rfl
@[simp] theorem writeKeys_keys (keys : BitVec 16) : (s.writeKeys keys).keys = keys := rfl
@[simp] theorem writeKeys_rnd (keys : BitVec 16) : (s.writeKeys keys).rnd = s.rnd := rfl
@[simp] theorem writeKeys_draws (keys : BitVec 16) : (s.writeKeys keys).draws = s.draws := rfl
@[simp] theorem writeKeys_schedule (keys : BitVec 16) : (s.writeKeys keys).schedule = s.schedule := rfl
@[simp] theorem writeKeys_frames (keys : BitVec 16) : (s.writeKeys keys).frames = s.frames := rfl
@[simp] theorem writeKeys_readV (keys : BitVec 16) (y : Nibble) : (s.writeKeys keys).readV y = s.readV y := rfl
@[simp] theorem writeKeys_dataAddress (keys : BitVec 16) : (s.writeKeys keys).dataAddress = s.dataAddress := rfl

/-! ### `push` -/

@[simp] theorem push_v (h : s.sp.toNat < 16) (a : Word) : (s.push h a).v = s.v := rfl
@[simp] theorem push_i (h : s.sp.toNat < 16) (a : Word) : (s.push h a).i = s.i := rfl
@[simp] theorem push_pc (h : s.sp.toNat < 16) (a : Word) : (s.push h a).pc = s.pc := rfl
@[simp] theorem push_stack (h : s.sp.toNat < 16) (a : Word) : (s.push h a).stack = s.stack.set s.sp.toNat a h := rfl
@[simp] theorem push_sp (h : s.sp.toNat < 16) (a : Word) : (s.push h a).sp = s.sp + 1#5 := rfl
@[simp] theorem push_dt (h : s.sp.toNat < 16) (a : Word) : (s.push h a).dt = s.dt := rfl
@[simp] theorem push_st (h : s.sp.toNat < 16) (a : Word) : (s.push h a).st = s.st := rfl
@[simp] theorem push_run (h : s.sp.toNat < 16) (a : Word) : (s.push h a).run = s.run := rfl
@[simp] theorem push_ir (h : s.sp.toNat < 16) (a : Word) : (s.push h a).ir = s.ir := rfl
@[simp] theorem push_redraw (h : s.sp.toNat < 16) (a : Word) : (s.push h a).redraw = s.redraw := rfl
@[simp] theorem push_faultCause (h : s.sp.toNat < 16) (a : Word) : (s.push h a).faultCause = s.faultCause := rfl
@[simp] theorem push_faultInstr (h : s.sp.toNat < 16) (a : Word) : (s.push h a).faultInstr = s.faultInstr := rfl
@[simp] theorem push_faultPc (h : s.sp.toNat < 16) (a : Word) : (s.push h a).faultPc = s.faultPc := rfl
@[simp] theorem push_mem (h : s.sp.toNat < 16) (a : Word) : (s.push h a).mem = s.mem := rfl
@[simp] theorem push_fb (h : s.sp.toNat < 16) (a : Word) : (s.push h a).fb = s.fb := rfl
@[simp] theorem push_keys (h : s.sp.toNat < 16) (a : Word) : (s.push h a).keys = s.keys := rfl
@[simp] theorem push_rnd (h : s.sp.toNat < 16) (a : Word) : (s.push h a).rnd = s.rnd := rfl
@[simp] theorem push_draws (h : s.sp.toNat < 16) (a : Word) : (s.push h a).draws = s.draws := rfl
@[simp] theorem push_schedule (h : s.sp.toNat < 16) (a : Word) : (s.push h a).schedule = s.schedule := rfl
@[simp] theorem push_frames (h : s.sp.toNat < 16) (a : Word) : (s.push h a).frames = s.frames := rfl
@[simp] theorem push_readV (h : s.sp.toNat < 16) (a : Word) (y : Nibble) : (s.push h a).readV y = s.readV y := rfl
@[simp] theorem push_dataAddress (h : s.sp.toNat < 16) (a : Word) : (s.push h a).dataAddress = s.dataAddress := rfl

/-! ### `pop` -/

@[simp] theorem pop_v : (s.pop).v = s.v := rfl
@[simp] theorem pop_i : (s.pop).i = s.i := rfl
@[simp] theorem pop_pc : (s.pop).pc = s.pc := rfl
@[simp] theorem pop_stack : (s.pop).stack = s.stack := rfl
@[simp] theorem pop_sp : (s.pop).sp = s.sp - 1#5 := rfl
@[simp] theorem pop_dt : (s.pop).dt = s.dt := rfl
@[simp] theorem pop_st : (s.pop).st = s.st := rfl
@[simp] theorem pop_run : (s.pop).run = s.run := rfl
@[simp] theorem pop_ir : (s.pop).ir = s.ir := rfl
@[simp] theorem pop_redraw : (s.pop).redraw = s.redraw := rfl
@[simp] theorem pop_faultCause : (s.pop).faultCause = s.faultCause := rfl
@[simp] theorem pop_faultInstr : (s.pop).faultInstr = s.faultInstr := rfl
@[simp] theorem pop_faultPc : (s.pop).faultPc = s.faultPc := rfl
@[simp] theorem pop_mem : (s.pop).mem = s.mem := rfl
@[simp] theorem pop_fb : (s.pop).fb = s.fb := rfl
@[simp] theorem pop_keys : (s.pop).keys = s.keys := rfl
@[simp] theorem pop_rnd : (s.pop).rnd = s.rnd := rfl
@[simp] theorem pop_draws : (s.pop).draws = s.draws := rfl
@[simp] theorem pop_schedule : (s.pop).schedule = s.schedule := rfl
@[simp] theorem pop_frames : (s.pop).frames = s.frames := rfl
@[simp] theorem pop_readV (y : Nibble) : (s.pop).readV y = s.readV y := rfl
@[simp] theorem pop_dataAddress : (s.pop).dataAddress = s.dataAddress := rfl

/-! ### `takeTrap` -/

@[simp] theorem takeTrap_v (c : TrapCause) (w : Word) : (s.takeTrap c w).v = s.v := rfl
@[simp] theorem takeTrap_i (c : TrapCause) (w : Word) : (s.takeTrap c w).i = s.i := rfl
@[simp] theorem takeTrap_pc (c : TrapCause) (w : Word) : (s.takeTrap c w).pc = s.pc := rfl
@[simp] theorem takeTrap_stack (c : TrapCause) (w : Word) : (s.takeTrap c w).stack = s.stack := rfl
@[simp] theorem takeTrap_sp (c : TrapCause) (w : Word) : (s.takeTrap c w).sp = s.sp := rfl
@[simp] theorem takeTrap_dt (c : TrapCause) (w : Word) : (s.takeTrap c w).dt = s.dt := rfl
@[simp] theorem takeTrap_st (c : TrapCause) (w : Word) : (s.takeTrap c w).st = s.st := rfl
@[simp] theorem takeTrap_run (c : TrapCause) (w : Word) : (s.takeTrap c w).run = .halted := rfl
@[simp] theorem takeTrap_ir (c : TrapCause) (w : Word) : (s.takeTrap c w).ir = s.ir := rfl
@[simp] theorem takeTrap_redraw (c : TrapCause) (w : Word) : (s.takeTrap c w).redraw = s.redraw := rfl
@[simp] theorem takeTrap_faultCause (c : TrapCause) (w : Word) : (s.takeTrap c w).faultCause = c.code := rfl
@[simp] theorem takeTrap_faultInstr (c : TrapCause) (w : Word) : (s.takeTrap c w).faultInstr = w := rfl
@[simp] theorem takeTrap_faultPc (c : TrapCause) (w : Word) : (s.takeTrap c w).faultPc = s.pc := rfl
@[simp] theorem takeTrap_mem (c : TrapCause) (w : Word) : (s.takeTrap c w).mem = s.mem := rfl
@[simp] theorem takeTrap_fb (c : TrapCause) (w : Word) : (s.takeTrap c w).fb = s.fb := rfl
@[simp] theorem takeTrap_keys (c : TrapCause) (w : Word) : (s.takeTrap c w).keys = s.keys := rfl
@[simp] theorem takeTrap_rnd (c : TrapCause) (w : Word) : (s.takeTrap c w).rnd = s.rnd := rfl
@[simp] theorem takeTrap_draws (c : TrapCause) (w : Word) : (s.takeTrap c w).draws = s.draws := rfl
@[simp] theorem takeTrap_schedule (c : TrapCause) (w : Word) : (s.takeTrap c w).schedule = s.schedule := rfl
@[simp] theorem takeTrap_frames (c : TrapCause) (w : Word) : (s.takeTrap c w).frames = s.frames := rfl
@[simp] theorem takeTrap_readV (c : TrapCause) (w : Word) (y : Nibble) : (s.takeTrap c w).readV y = s.readV y := rfl
@[simp] theorem takeTrap_dataAddress (c : TrapCause) (w : Word) : (s.takeTrap c w).dataAddress = s.dataAddress := rfl

/-! ### `drawn` -/

@[simp] theorem drawn_v : (s.drawn).v = s.v := rfl
@[simp] theorem drawn_i : (s.drawn).i = s.i := rfl
@[simp] theorem drawn_pc : (s.drawn).pc = s.pc := rfl
@[simp] theorem drawn_stack : (s.drawn).stack = s.stack := rfl
@[simp] theorem drawn_sp : (s.drawn).sp = s.sp := rfl
@[simp] theorem drawn_dt : (s.drawn).dt = s.dt := rfl
@[simp] theorem drawn_st : (s.drawn).st = s.st := rfl
@[simp] theorem drawn_run : (s.drawn).run = s.run := rfl
@[simp] theorem drawn_ir : (s.drawn).ir = s.ir := rfl
@[simp] theorem drawn_redraw : (s.drawn).redraw = s.redraw := rfl
@[simp] theorem drawn_faultCause : (s.drawn).faultCause = s.faultCause := rfl
@[simp] theorem drawn_faultInstr : (s.drawn).faultInstr = s.faultInstr := rfl
@[simp] theorem drawn_faultPc : (s.drawn).faultPc = s.faultPc := rfl
@[simp] theorem drawn_mem : (s.drawn).mem = s.mem := rfl
@[simp] theorem drawn_fb : (s.drawn).fb = s.fb := rfl
@[simp] theorem drawn_keys : (s.drawn).keys = s.keys := rfl
@[simp] theorem drawn_rnd : (s.drawn).rnd = s.rnd.tail := rfl
@[simp] theorem drawn_draws : (s.drawn).draws = s.draws + 1 := rfl
@[simp] theorem drawn_schedule : (s.drawn).schedule = s.schedule := rfl
@[simp] theorem drawn_frames : (s.drawn).frames = s.frames := rfl
@[simp] theorem drawn_readV (y : Nibble) : (s.drawn).readV y = s.readV y := rfl
@[simp] theorem drawn_dataAddress : (s.drawn).dataAddress = s.dataAddress := rfl

/-! ### `decTimers` -/

@[simp] theorem decTimers_v : (s.decTimers).v = s.v := rfl
@[simp] theorem decTimers_i : (s.decTimers).i = s.i := rfl
@[simp] theorem decTimers_pc : (s.decTimers).pc = s.pc := rfl
@[simp] theorem decTimers_stack : (s.decTimers).stack = s.stack := rfl
@[simp] theorem decTimers_sp : (s.decTimers).sp = s.sp := rfl
@[simp] theorem decTimers_dt : (s.decTimers).dt = decrement s.dt := rfl
@[simp] theorem decTimers_st : (s.decTimers).st = decrement s.st := rfl
@[simp] theorem decTimers_run : (s.decTimers).run = s.run := rfl
@[simp] theorem decTimers_ir : (s.decTimers).ir = s.ir := rfl
@[simp] theorem decTimers_redraw : (s.decTimers).redraw = s.redraw := rfl
@[simp] theorem decTimers_faultCause : (s.decTimers).faultCause = s.faultCause := rfl
@[simp] theorem decTimers_faultInstr : (s.decTimers).faultInstr = s.faultInstr := rfl
@[simp] theorem decTimers_faultPc : (s.decTimers).faultPc = s.faultPc := rfl
@[simp] theorem decTimers_mem : (s.decTimers).mem = s.mem := rfl
@[simp] theorem decTimers_fb : (s.decTimers).fb = s.fb := rfl
@[simp] theorem decTimers_keys : (s.decTimers).keys = s.keys := rfl
@[simp] theorem decTimers_rnd : (s.decTimers).rnd = s.rnd := rfl
@[simp] theorem decTimers_draws : (s.decTimers).draws = s.draws := rfl
@[simp] theorem decTimers_schedule : (s.decTimers).schedule = s.schedule := rfl
@[simp] theorem decTimers_frames : (s.decTimers).frames = s.frames := rfl
@[simp] theorem decTimers_readV (y : Nibble) : (s.decTimers).readV y = s.readV y := rfl
@[simp] theorem decTimers_dataAddress : (s.decTimers).dataAddress = s.dataAddress := rfl

/-! ### Reading after writing a register -/

@[simp] theorem writeV_readV (x y : Nibble) (b : Byte) :
    (s.writeV x b).readV y = if x = y then b else s.readV y := by
  simp only [State.readV, State.writeV, Vector.getElem_set, BitVec.toNat_inj]

@[simp] theorem writeFlag_readV (f : Byte) (y : Nibble) :
    (s.writeFlag f).readV y = if y = vf then f else s.readV y := by
  simp only [State.writeFlag, writeV_readV, eq_comm]

@[simp] theorem writeI_dataAddress (a : Word) : (s.writeI a).dataAddress = a.toNat := rfl

end Sys2Proof.Machine
end

