-- ==== Sys2Proof/Laws/Ops.lean ====
section
/-! SUPPORT. One lemma per shared operation that says what it does: skips, key tests, the bounds check, stores and loads of
ranges, flags, operands, the framebuffer, key table and timers. Proofs cite these and do not unfold the operation. -/

namespace Sys2Proof.Machine

/-! ### Skips and key tests -/

theorem skipIf_pc (s : State) (c : Prop) [Decidable c] :
    (s.skipIf c).pc = if c then s.pc + 4#16 else s.pc + 2#16 := by
  unfold State.skipIf; split <;> rfl

@[simp] theorem skipIf_v (s : State) (c : Prop) [Decidable c] : (s.skipIf c).v = s.v := by
  unfold State.skipIf; split <;> rfl
@[simp] theorem skipIf_i (s : State) (c : Prop) [Decidable c] : (s.skipIf c).i = s.i := by
  unfold State.skipIf; split <;> rfl
@[simp] theorem skipIf_stack (s : State) (c : Prop) [Decidable c] : (s.skipIf c).stack = s.stack := by
  unfold State.skipIf; split <;> rfl
@[simp] theorem skipIf_sp (s : State) (c : Prop) [Decidable c] : (s.skipIf c).sp = s.sp := by
  unfold State.skipIf; split <;> rfl
@[simp] theorem skipIf_dt (s : State) (c : Prop) [Decidable c] : (s.skipIf c).dt = s.dt := by
  unfold State.skipIf; split <;> rfl
@[simp] theorem skipIf_st (s : State) (c : Prop) [Decidable c] : (s.skipIf c).st = s.st := by
  unfold State.skipIf; split <;> rfl
@[simp] theorem skipIf_run (s : State) (c : Prop) [Decidable c] : (s.skipIf c).run = s.run := by
  unfold State.skipIf; split <;> rfl
@[simp] theorem skipIf_ir (s : State) (c : Prop) [Decidable c] : (s.skipIf c).ir = s.ir := by
  unfold State.skipIf; split <;> rfl
@[simp] theorem skipIf_redraw (s : State) (c : Prop) [Decidable c] : (s.skipIf c).redraw = s.redraw := by
  unfold State.skipIf; split <;> rfl
@[simp] theorem skipIf_faultCause (s : State) (c : Prop) [Decidable c] : (s.skipIf c).faultCause = s.faultCause := by
  unfold State.skipIf; split <;> rfl
@[simp] theorem skipIf_faultInstr (s : State) (c : Prop) [Decidable c] : (s.skipIf c).faultInstr = s.faultInstr := by
  unfold State.skipIf; split <;> rfl
@[simp] theorem skipIf_faultPc (s : State) (c : Prop) [Decidable c] : (s.skipIf c).faultPc = s.faultPc := by
  unfold State.skipIf; split <;> rfl
@[simp] theorem skipIf_mem (s : State) (c : Prop) [Decidable c] : (s.skipIf c).mem = s.mem := by
  unfold State.skipIf; split <;> rfl
@[simp] theorem skipIf_fb (s : State) (c : Prop) [Decidable c] : (s.skipIf c).fb = s.fb := by
  unfold State.skipIf; split <;> rfl
@[simp] theorem skipIf_keys (s : State) (c : Prop) [Decidable c] : (s.skipIf c).keys = s.keys := by
  unfold State.skipIf; split <;> rfl
@[simp] theorem skipIf_rnd (s : State) (c : Prop) [Decidable c] : (s.skipIf c).rnd = s.rnd := by
  unfold State.skipIf; split <;> rfl
@[simp] theorem skipIf_draws (s : State) (c : Prop) [Decidable c] : (s.skipIf c).draws = s.draws := by
  unfold State.skipIf; split <;> rfl
@[simp] theorem skipIf_schedule (s : State) (c : Prop) [Decidable c] : (s.skipIf c).schedule = s.schedule := by
  unfold State.skipIf; split <;> rfl
@[simp] theorem skipIf_frames (s : State) (c : Prop) [Decidable c] : (s.skipIf c).frames = s.frames := by
  unfold State.skipIf; split <;> rfl
@[simp] theorem skipIf_readV (s : State) (c : Prop) [Decidable c] (x : Nibble) : (s.skipIf c).readV x = s.readV x := by
  unfold State.skipIf; split <;> rfl

theorem keyDown_keyClear (keys : BitVec 16) (j k : Nibble) :
    keyDown (keyClear keys k) j = (if j = k then false else keyDown keys j) := by
  have hj := j.isLt
  have hk := k.isLt
  simp only [keyDown, keyClear, BitVec.getLsbD_and, BitVec.getLsbD_not, BitVec.getLsbD_shiftLeft, BitVec.getLsbD_one]
  by_cases h : j = k
  · subst h; simp [hj]
  · have h' : j.toNat ≠ k.toNat := fun e => h (BitVec.eq_of_toNat_eq e)
    rw [if_neg h]
    by_cases h2 : j.toNat < k.toNat
    · simp [h2, hj]
    · have : ¬ (j.toNat - k.toNat = 0) := by omega
      simp [h2, hj, this]

theorem keyDown_keySet (keys : BitVec 16) (j k : Nibble) :
    keyDown (keySet keys k) j = (if j = k then true else keyDown keys j) := by
  have hj := j.isLt
  have hk := k.isLt
  simp only [keyDown, keySet, BitVec.getLsbD_or, BitVec.getLsbD_shiftLeft, BitVec.getLsbD_one]
  by_cases h : j = k
  · subst h; simp [hj]
  · have h' : j.toNat ≠ k.toNat := fun e => h (BitVec.eq_of_toNat_eq e)
    rw [if_neg h]
    by_cases h2 : j.toNat < k.toNat
    · simp [h2]
    · have : ¬ (j.toNat - k.toNat = 0) := by omega
      simp [this]

/-- Testing a key leaves it released and every other key as it was. -/
theorem keyDown_consumeKey (s : State) (j k : Nibble) :
    keyDown (s.consumeKey k).keys j = (if j = k then false else keyDown s.keys j) := by
  unfold State.consumeKey
  split
  · exact keyDown_keyClear s.keys j k
  · next h =>
    split
    · next hj => subst hj; simpa using h
    · rfl

@[simp] theorem consumeKey_pc (s : State) (k : Nibble) : (s.consumeKey k).pc = s.pc := by
  unfold State.consumeKey; split <;> rfl
@[simp] theorem consumeKey_v (s : State) (k : Nibble) : (s.consumeKey k).v = s.v := by
  unfold State.consumeKey; split <;> rfl
@[simp] theorem consumeKey_i (s : State) (k : Nibble) : (s.consumeKey k).i = s.i := by
  unfold State.consumeKey; split <;> rfl
@[simp] theorem consumeKey_stack (s : State) (k : Nibble) : (s.consumeKey k).stack = s.stack := by
  unfold State.consumeKey; split <;> rfl
@[simp] theorem consumeKey_sp (s : State) (k : Nibble) : (s.consumeKey k).sp = s.sp := by
  unfold State.consumeKey; split <;> rfl
@[simp] theorem consumeKey_dt (s : State) (k : Nibble) : (s.consumeKey k).dt = s.dt := by
  unfold State.consumeKey; split <;> rfl
@[simp] theorem consumeKey_st (s : State) (k : Nibble) : (s.consumeKey k).st = s.st := by
  unfold State.consumeKey; split <;> rfl
@[simp] theorem consumeKey_run (s : State) (k : Nibble) : (s.consumeKey k).run = s.run := by
  unfold State.consumeKey; split <;> rfl
@[simp] theorem consumeKey_ir (s : State) (k : Nibble) : (s.consumeKey k).ir = s.ir := by
  unfold State.consumeKey; split <;> rfl
@[simp] theorem consumeKey_redraw (s : State) (k : Nibble) : (s.consumeKey k).redraw = s.redraw := by
  unfold State.consumeKey; split <;> rfl
@[simp] theorem consumeKey_faultCause (s : State) (k : Nibble) : (s.consumeKey k).faultCause = s.faultCause := by
  unfold State.consumeKey; split <;> rfl
@[simp] theorem consumeKey_faultInstr (s : State) (k : Nibble) : (s.consumeKey k).faultInstr = s.faultInstr := by
  unfold State.consumeKey; split <;> rfl
@[simp] theorem consumeKey_faultPc (s : State) (k : Nibble) : (s.consumeKey k).faultPc = s.faultPc := by
  unfold State.consumeKey; split <;> rfl
@[simp] theorem consumeKey_mem (s : State) (k : Nibble) : (s.consumeKey k).mem = s.mem := by
  unfold State.consumeKey; split <;> rfl
@[simp] theorem consumeKey_fb (s : State) (k : Nibble) : (s.consumeKey k).fb = s.fb := by
  unfold State.consumeKey; split <;> rfl
@[simp] theorem consumeKey_rnd (s : State) (k : Nibble) : (s.consumeKey k).rnd = s.rnd := by
  unfold State.consumeKey; split <;> rfl
@[simp] theorem consumeKey_draws (s : State) (k : Nibble) : (s.consumeKey k).draws = s.draws := by
  unfold State.consumeKey; split <;> rfl
@[simp] theorem consumeKey_schedule (s : State) (k : Nibble) : (s.consumeKey k).schedule = s.schedule := by
  unfold State.consumeKey; split <;> rfl
@[simp] theorem consumeKey_frames (s : State) (k : Nibble) : (s.consumeKey k).frames = s.frames := by
  unfold State.consumeKey; split <;> rfl
@[simp] theorem consumeKey_readV (s : State) (k x : Nibble) : (s.consumeKey k).readV x = s.readV x := by
  unfold State.consumeKey; split <;> rfl

/-! ### Bounds, stores and loads -/

theorem inBounds_iff (a n : Nat) : inBounds a n = true ↔ n = 0 ∨ a + n ≤ 4096 := by
  simp only [inBounds, Bool.or_eq_true, beq_iff_eq, decide_eq_true_eq]; omega

@[simp] theorem length_decimalDigits (b : Byte) : (decimalDigits b).length = 3 := rfl

@[simp] theorem length_regRange (s : State) (x : Nibble) : (s.regRange x).length = x.toNat + 1 := by
  simp [State.regRange, regCount]

theorem getD_regRange (s : State) (x k : Nibble) (h : k.toNat ≤ x.toNat) :
    (s.regRange x).getD k.toNat 0 = s.readV k := by
  have hk : k.toNat < (s.regRange x).length := by simp; omega
  rw [List.getD_eq_getElem _ _ hk]
  simp only [State.regRange, List.getElem_map, List.getElem_range, BitVec.ofNat_toNat, BitVec.setWidth_eq]

/-- A store at `I` either lands whole or raises with no effect. -/
theorem storeAtI_eq (s : State) (xs : List Byte) :
    (inBounds s.dataAddress xs.length = true ∧
      s.storeAtI xs = .next (s.writeMem (s.mem.writeBytes s.dataAddress xs)).advance) ∨
    (inBounds s.dataAddress xs.length = false ∧ s.storeAtI xs = .next (s.takeTrap .memoryOutOfBounds s.ir)) := by
  unfold State.storeAtI
  cases h : inBounds s.dataAddress xs.length
  · exact .inr ⟨rfl, rfl⟩
  · exact .inl ⟨rfl, rfl⟩

/-- Loading registers changes nothing but the register file. -/
theorem writeRegs_eq (s : State) (k : Nat) (xs : List Byte) : s.writeRegs k xs = { s with v := (s.writeRegs k xs).v } := by
  induction xs generalizing s k with
  | nil => rfl
  | cons b rest ih => rw [State.writeRegs, ih]; rfl

@[simp] theorem writeRegs_pc (s : State) (k : Nat) (xs : List Byte) : (s.writeRegs k xs).pc = s.pc := by
  rw [writeRegs_eq]
@[simp] theorem writeRegs_i (s : State) (k : Nat) (xs : List Byte) : (s.writeRegs k xs).i = s.i := by
  rw [writeRegs_eq]
@[simp] theorem writeRegs_stack (s : State) (k : Nat) (xs : List Byte) : (s.writeRegs k xs).stack = s.stack := by
  rw [writeRegs_eq]
@[simp] theorem writeRegs_sp (s : State) (k : Nat) (xs : List Byte) : (s.writeRegs k xs).sp = s.sp := by
  rw [writeRegs_eq]
@[simp] theorem writeRegs_dt (s : State) (k : Nat) (xs : List Byte) : (s.writeRegs k xs).dt = s.dt := by
  rw [writeRegs_eq]
@[simp] theorem writeRegs_st (s : State) (k : Nat) (xs : List Byte) : (s.writeRegs k xs).st = s.st := by
  rw [writeRegs_eq]
@[simp] theorem writeRegs_run (s : State) (k : Nat) (xs : List Byte) : (s.writeRegs k xs).run = s.run := by
  rw [writeRegs_eq]
@[simp] theorem writeRegs_ir (s : State) (k : Nat) (xs : List Byte) : (s.writeRegs k xs).ir = s.ir := by
  rw [writeRegs_eq]
@[simp] theorem writeRegs_redraw (s : State) (k : Nat) (xs : List Byte) : (s.writeRegs k xs).redraw = s.redraw := by
  rw [writeRegs_eq]
@[simp] theorem writeRegs_faultCause (s : State) (k : Nat) (xs : List Byte) : (s.writeRegs k xs).faultCause = s.faultCause := by
  rw [writeRegs_eq]
@[simp] theorem writeRegs_faultInstr (s : State) (k : Nat) (xs : List Byte) : (s.writeRegs k xs).faultInstr = s.faultInstr := by
  rw [writeRegs_eq]
@[simp] theorem writeRegs_faultPc (s : State) (k : Nat) (xs : List Byte) : (s.writeRegs k xs).faultPc = s.faultPc := by
  rw [writeRegs_eq]
@[simp] theorem writeRegs_mem (s : State) (k : Nat) (xs : List Byte) : (s.writeRegs k xs).mem = s.mem := by
  rw [writeRegs_eq]
@[simp] theorem writeRegs_fb (s : State) (k : Nat) (xs : List Byte) : (s.writeRegs k xs).fb = s.fb := by
  rw [writeRegs_eq]
@[simp] theorem writeRegs_keys (s : State) (k : Nat) (xs : List Byte) : (s.writeRegs k xs).keys = s.keys := by
  rw [writeRegs_eq]
@[simp] theorem writeRegs_rnd (s : State) (k : Nat) (xs : List Byte) : (s.writeRegs k xs).rnd = s.rnd := by
  rw [writeRegs_eq]
@[simp] theorem writeRegs_draws (s : State) (k : Nat) (xs : List Byte) : (s.writeRegs k xs).draws = s.draws := by
  rw [writeRegs_eq]
@[simp] theorem writeRegs_schedule (s : State) (k : Nat) (xs : List Byte) : (s.writeRegs k xs).schedule = s.schedule := by
  rw [writeRegs_eq]
@[simp] theorem writeRegs_frames (s : State) (k : Nat) (xs : List Byte) : (s.writeRegs k xs).frames = s.frames := by
  rw [writeRegs_eq]

/-- Registers `k` up take the bytes in order; the others are unchanged. -/
theorem writeRegs_readV (s : State) (k : Nat) (xs : List Byte) (h : k + xs.length ≤ 16) (y : Nibble) :
    (s.writeRegs k xs).readV y =
      if k ≤ y.toNat ∧ y.toNat < k + xs.length then xs.getD (y.toNat - k) 0 else s.readV y := by
  induction xs generalizing s k with
  | nil =>
    have : ¬ (k ≤ y.toNat ∧ y.toNat < k + ([] : List Byte).length) := by simp
    rw [if_neg this]; rfl
  | cons b rest ih =>
    simp only [List.length_cons] at h ⊢
    rw [State.writeRegs, ih _ _ (by omega), writeV_readV]
    by_cases hy : y.toNat = k
    · have hk : BitVec.ofNat 4 k = y := by
        apply BitVec.eq_of_toNat_eq; rw [BitVec.toNat_ofNat, hy]; exact Nat.mod_eq_of_lt (by omega)
      rw [if_neg (by omega), if_pos hk, if_pos (by omega)]
      simp [hy]
    · have hk : ¬ BitVec.ofNat 4 k = y := by
        intro e; apply hy; rw [← e, BitVec.toNat_ofNat]; exact Nat.mod_eq_of_lt (by omega)
      by_cases hin : k + 1 ≤ y.toNat ∧ y.toNat < k + 1 + rest.length
      · rw [if_pos hin, if_pos (by omega)]
        have : y.toNat - k = (y.toNat - (k + 1)) + 1 := by omega
        rw [this]; simp
      · rw [if_neg hin, if_neg hk, if_neg (by omega)]

/-! ### Flags and operands as numbers -/

theorem carryFlag_eq (a b : Byte) : carryFlag a b = if a.toNat + b.toNat > 255 then 0x01#8 else 0x00#8 := by
  simp [carryFlag, flagByte]

theorem greaterFlag_eq (a b : Byte) : greaterFlag a b = if a.toNat > b.toNat then 0x01#8 else 0x00#8 := by
  simp [greaterFlag, flagByte]

theorem indexFlag_eq (i : Word) (a : Byte) : indexFlag i a = if i.toNat + a.toNat > 0xFFF then 0x01#8 else 0x00#8 := by
  simp [indexFlag, flagByte]

theorem toNat_shrFlag (a : Byte) : (shrFlag a).toNat = a.toNat % 2 := by
  simp only [shrFlag, BitVec.toNat_and, BitVec.toNat_ofNat]; exact Nat.and_one_is_mod _

theorem toNat_shlFlag (a : Byte) : (shlFlag a).toNat = a.toNat / 128 := by
  simp [shlFlag, Config.shlVfNormalised, BitVec.toNat_ushiftRight, Nat.shiftRight_eq_div_pow]

theorem toNat_addressOf (nnn : Imm12) : (addressOf nnn).toNat = nnn.toNat := by
  have := nnn.isLt
  simp only [addressOf, BitVec.toNat_setWidth]; omega

theorem toNat_zext16 (b : Byte) : (zext16 b).toNat = b.toNat := by
  have := b.isLt
  simp only [zext16, BitVec.toNat_setWidth]; omega

theorem toNat_offsetTarget (b : Byte) (nnn : Imm12) : (offsetTarget b nnn).toNat = (b.toNat + nnn.toNat) % 4096 := by
  have hb := b.isLt
  have hn := nnn.isLt
  have h : ∀ k, k &&& 4095 = k % 4096 := fun k => Nat.and_two_pow_sub_one_eq_mod k 12
  simp only [offsetTarget, BitVec.toNat_and, BitVec.toNat_add, toNat_zext16, toNat_addressOf, BitVec.toNat_ofNat]
  rw [show 4095 % 2 ^ 16 = 4095 from rfl, h]; omega

theorem toNat_lowNibble (b : Byte) : (lowNibble b).toNat = b.toNat % 16 := by
  simp only [lowNibble, BitVec.extractLsb'_toNat, Nat.shiftRight_eq_div_pow]; omega

theorem lowNibble_eq (b : Byte) : lowNibble b = BitVec.ofNat 4 (b.toNat % 16) := by
  apply BitVec.eq_of_toNat_eq; rw [toNat_lowNibble, BitVec.toNat_ofNat]; omega

theorem toNat_keyByte (k : Nibble) : (keyByte k).toNat = k.toNat := by
  have := k.isLt
  simp only [keyByte, BitVec.toNat_setWidth]; omega

theorem toNat_glyphAddress (d : Nibble) : (glyphAddress d).toNat = 5 * d.toNat := by
  have := d.isLt
  simp only [glyphAddress, BitVec.toNat_mul, BitVec.toNat_setWidth, BitVec.toNat_ofNat]; omega

theorem toNat_decrement (b : Byte) : (decrement b).toNat = b.toNat - 1 := by
  have := b.isLt
  unfold decrement
  split
  · next h => subst h; rfl
  · next h =>
    have h0 : b.toNat ≠ 0 := fun e => h (BitVec.eq_of_toNat_eq e)
    rw [BitVec.toNat_sub, BitVec.toNat_ofNat]; omega

/-! ### Sprites and the framebuffer -/

theorem fbIndex_lt (x y : Nat) : fbIndex x y < 2048 := by unfold fbIndex; omega

/-- Flipping a pixel of the framebuffer flips it and no other. -/
theorem lit_flipPixel (fb : Frame) (k j : Nat) (hk : k < 2048) :
    lit (flipPixel fb k) j = if j = k then !lit fb k else lit fb j := by
  simp only [lit, flipPixel, BitVec.getLsbD_xor, BitVec.getLsbD_shiftLeft, BitVec.getLsbD_one]
  by_cases h : j = k
  · subst h; simp [hk]
  · rw [if_neg h]
    by_cases h2 : j < k
    · simp [h2]
    · have : ¬ (j - k = 0) := by omega
      simp [this]

/-- Flipping distinct pixels flips exactly those. -/
theorem lit_foldl_flipPixel (ks : List Nat) (hk : ∀ k ∈ ks, k < 2048) (hd : ks.Nodup) (fb : Frame) (j : Nat) :
    lit (ks.foldl flipPixel fb) j = (lit fb j ^^ decide (j ∈ ks)) := by
  induction ks generalizing fb with
  | nil => simp
  | cons k rest ih =>
    rw [List.foldl_cons, ih (fun m hm => hk m (by simp [hm])) (List.nodup_cons.mp hd).2,
      lit_flipPixel fb k j (hk k (by simp))]
    have hn := (List.nodup_cons.mp hd).1
    by_cases h : j = k
    · subst h; simp [hn]
    · simp [h]

theorem mem_rowPixels (x y : Nat) (row : Byte) (k : Nat) :
    k ∈ rowPixels x y row ↔ ∃ c, c < 8 ∧ row.getLsbD (7 - c) = true ∧ k = fbIndex (x + c) y := by
  simp only [rowPixels, List.mem_map, List.mem_filter, List.mem_range]
  constructor
  · rintro ⟨c, ⟨hc, hb⟩, rfl⟩; exact ⟨c, hc, hb, rfl⟩
  · rintro ⟨c, hc, hb, rfl⟩; exact ⟨c, ⟨hc, hb⟩, rfl⟩

/-- The pixels of a sprite are the places of its 1 bits. -/
theorem mem_spritePixels (x y : Nat) (rows : List Byte) (k : Nat) :
    k ∈ spritePixels x y rows ↔ ∃ r c, ∃ h : r < rows.length, c < 8 ∧ rows[r].getLsbD (7 - c) = true ∧
      k = fbIndex (x + c) (y + r) := by
  induction rows generalizing y with
  | nil => simp [spritePixels]
  | cons row rest ih =>
    simp only [spritePixels, List.mem_append, mem_rowPixels, ih]
    constructor
    · rintro (⟨c, hc, hb, hk⟩ | ⟨r, c, h, hc, hb, hk⟩)
      · exact ⟨0, c, by simp, hc, by simpa using hb, by simpa using hk⟩
      · exact ⟨r + 1, c, by simpa using h, hc, by simpa using hb, by rw [hk]; congr 1; omega⟩
    · rintro ⟨r, c, h, hc, hb, hk⟩
      cases r with
      | zero => exact .inl ⟨c, hc, by simpa using hb, by simpa using hk⟩
      | succ r => exact .inr ⟨r, c, by simpa using h, hc, by simpa using hb, by rw [hk]; congr 1; omega⟩

theorem spritePixels_lt (x y : Nat) (rows : List Byte) : ∀ k ∈ spritePixels x y rows, k < 2048 := by
  intro k hk
  obtain ⟨r, c, _, _, _, rfl⟩ := (mem_spritePixels x y rows k).mp hk
  exact fbIndex_lt _ _

end Sys2Proof.Machine
end

