-- ==== Sys2Proof/Laws/PerInstr.lean ====
section
/-! SUPPORT. Facts about every instruction as syntax, one lemma per constructor: its encoding lies in its own row of the
opcode table (R95, R96). -/

namespace Sys2Proof.Laws.RowSelects

/-- The encoding of the instruction satisfies the match and mask of its row. -/
def Statement (i : Instr) : Prop := (rowOf i).selects (encode i) = true

theorem cls : Statement .cls := rfl
theorem ret : Statement .ret := rfl
theorem jp (nnn : Imm12) : Statement (.jp nnn) := by
  simp only [Statement, OpcodeRow.selects, rowOf, encode, and_maskOp, opField_packA, beq_iff_eq]; rfl
theorem call (nnn : Imm12) : Statement (.call nnn) := by
  simp only [Statement, OpcodeRow.selects, rowOf, encode, and_maskOp, opField_packA, beq_iff_eq]; rfl
theorem seNn (x : Nibble) (nn : Byte) : Statement (.seNn x nn) := by
  simp only [Statement, OpcodeRow.selects, rowOf, encode, and_maskOp, opField_packI, beq_iff_eq]; rfl
theorem sneNn (x : Nibble) (nn : Byte) : Statement (.sneNn x nn) := by
  simp only [Statement, OpcodeRow.selects, rowOf, encode, and_maskOp, opField_packI, beq_iff_eq]; rfl
theorem seVy (x y : Nibble) : Statement (.seVy x y) := by
  simp only [Statement, OpcodeRow.selects, rowOf, encode, and_maskOpN, opField_packR, nField_packR, beq_iff_eq]; rfl
theorem ldNn (x : Nibble) (nn : Byte) : Statement (.ldNn x nn) := by
  simp only [Statement, OpcodeRow.selects, rowOf, encode, and_maskOp, opField_packI, beq_iff_eq]; rfl
theorem addNn (x : Nibble) (nn : Byte) : Statement (.addNn x nn) := by
  simp only [Statement, OpcodeRow.selects, rowOf, encode, and_maskOp, opField_packI, beq_iff_eq]; rfl
theorem ldVy (x y : Nibble) : Statement (.ldVy x y) := by
  simp only [Statement, OpcodeRow.selects, rowOf, encode, and_maskOpN, opField_packR, nField_packR, beq_iff_eq]; rfl
theorem or (x y : Nibble) : Statement (.or x y) := by
  simp only [Statement, OpcodeRow.selects, rowOf, encode, and_maskOpN, opField_packR, nField_packR, beq_iff_eq]; rfl
theorem and (x y : Nibble) : Statement (.and x y) := by
  simp only [Statement, OpcodeRow.selects, rowOf, encode, and_maskOpN, opField_packR, nField_packR, beq_iff_eq]; rfl
theorem xor (x y : Nibble) : Statement (.xor x y) := by
  simp only [Statement, OpcodeRow.selects, rowOf, encode, and_maskOpN, opField_packR, nField_packR, beq_iff_eq]; rfl
theorem addVy (x y : Nibble) : Statement (.addVy x y) := by
  simp only [Statement, OpcodeRow.selects, rowOf, encode, and_maskOpN, opField_packR, nField_packR, beq_iff_eq]; rfl
theorem sub (x y : Nibble) : Statement (.sub x y) := by
  simp only [Statement, OpcodeRow.selects, rowOf, encode, and_maskOpN, opField_packR, nField_packR, beq_iff_eq]; rfl
theorem shr (x y : Nibble) : Statement (.shr x y) := by
  simp only [Statement, OpcodeRow.selects, rowOf, encode, and_maskOpN, opField_packR, nField_packR, beq_iff_eq]; rfl
theorem subn (x y : Nibble) : Statement (.subn x y) := by
  simp only [Statement, OpcodeRow.selects, rowOf, encode, and_maskOpN, opField_packR, nField_packR, beq_iff_eq]; rfl
theorem shl (x y : Nibble) : Statement (.shl x y) := by
  simp only [Statement, OpcodeRow.selects, rowOf, encode, and_maskOpN, opField_packR, nField_packR, beq_iff_eq]; rfl
theorem sneVy (x y : Nibble) : Statement (.sneVy x y) := by
  simp only [Statement, OpcodeRow.selects, rowOf, encode, and_maskOpN, opField_packR, nField_packR, beq_iff_eq]; rfl
theorem ldI (nnn : Imm12) : Statement (.ldI nnn) := by
  simp only [Statement, OpcodeRow.selects, rowOf, encode, and_maskOp, opField_packA, beq_iff_eq]; rfl
theorem jpV0 (nnn : Imm12) : Statement (.jpV0 nnn) := by
  simp only [Statement, OpcodeRow.selects, rowOf, encode, and_maskOp, opField_packA, beq_iff_eq]; rfl
theorem rnd (x : Nibble) (nn : Byte) : Statement (.rnd x nn) := by
  simp only [Statement, OpcodeRow.selects, rowOf, encode, and_maskOp, opField_packI, beq_iff_eq]; rfl
theorem drw (x y n : Nibble) : Statement (.drw x y n) := by
  simp only [Statement, OpcodeRow.selects, rowOf, encode, and_maskOp, opField_packR, beq_iff_eq]; rfl
theorem skp (x : Nibble) : Statement (.skp x) := by
  simp only [Statement, OpcodeRow.selects, rowOf, encode, and_maskOpNn, opField_packI, nnField_packI, beq_iff_eq]; rfl
theorem sknp (x : Nibble) : Statement (.sknp x) := by
  simp only [Statement, OpcodeRow.selects, rowOf, encode, and_maskOpNn, opField_packI, nnField_packI, beq_iff_eq]; rfl
theorem ldVxDt (x : Nibble) : Statement (.ldVxDt x) := by
  simp only [Statement, OpcodeRow.selects, rowOf, encode, and_maskOpNn, opField_packI, nnField_packI, beq_iff_eq]; rfl
theorem ldVxK (x : Nibble) : Statement (.ldVxK x) := by
  simp only [Statement, OpcodeRow.selects, rowOf, encode, and_maskOpNn, opField_packI, nnField_packI, beq_iff_eq]; rfl
theorem ldDtVx (x : Nibble) : Statement (.ldDtVx x) := by
  simp only [Statement, OpcodeRow.selects, rowOf, encode, and_maskOpNn, opField_packI, nnField_packI, beq_iff_eq]; rfl
theorem ldStVx (x : Nibble) : Statement (.ldStVx x) := by
  simp only [Statement, OpcodeRow.selects, rowOf, encode, and_maskOpNn, opField_packI, nnField_packI, beq_iff_eq]; rfl
theorem addI (x : Nibble) : Statement (.addI x) := by
  simp only [Statement, OpcodeRow.selects, rowOf, encode, and_maskOpNn, opField_packI, nnField_packI, beq_iff_eq]; rfl
theorem ldF (x : Nibble) : Statement (.ldF x) := by
  simp only [Statement, OpcodeRow.selects, rowOf, encode, and_maskOpNn, opField_packI, nnField_packI, beq_iff_eq]; rfl
theorem ldB (x : Nibble) : Statement (.ldB x) := by
  simp only [Statement, OpcodeRow.selects, rowOf, encode, and_maskOpNn, opField_packI, nnField_packI, beq_iff_eq]; rfl
theorem stRegs (x : Nibble) : Statement (.stRegs x) := by
  simp only [Statement, OpcodeRow.selects, rowOf, encode, and_maskOpNn, opField_packI, nnField_packI, beq_iff_eq]; rfl
theorem ldRegs (x : Nibble) : Statement (.ldRegs x) := by
  simp only [Statement, OpcodeRow.selects, rowOf, encode, and_maskOpNn, opField_packI, nnField_packI, beq_iff_eq]; rfl

end Sys2Proof.Laws.RowSelects
end

