-- ==== Sys2Proof/Laws/Step.lean ====
section
/-! SUPPORT. Inversion: what an instruction and a step of the machine can do, said once. -/

namespace Sys2Proof.Machine

/-! ### The bounds checks of R216 as the meanings make them -/

theorem inBounds_drw (s : State) (x y n : Nibble) : inBounds s.dataAddress n.toNat = true ↔ raises (.drw x y n) s = none := by
  rw [inBounds_iff]
  simp only [raises, State.dataAddress]
  split <;> simp only [reduceCtorEq, iff_true, iff_false] <;> omega

theorem inBounds_ldB (s : State) (x : Nibble) :
    inBounds s.dataAddress (decimalDigits (s.readV x)).length = true ↔ raises (.ldB x) s = none := by
  rw [inBounds_iff, length_decimalDigits]
  simp only [raises, State.dataAddress]
  split <;> simp only [reduceCtorEq, iff_true, iff_false, false_or] <;> omega

theorem inBounds_stRegs (s : State) (x : Nibble) :
    inBounds s.dataAddress (s.regRange x).length = true ↔ raises (.stRegs x) s = none := by
  rw [inBounds_iff, length_regRange]
  simp only [raises, State.dataAddress]
  split <;> simp only [reduceCtorEq, iff_true, iff_false, false_or] <;> omega

theorem inBounds_ldRegs (s : State) (x : Nibble) :
    inBounds s.dataAddress (regCount x) = true ↔ raises (.ldRegs x) s = none := by
  rw [inBounds_iff]
  simp only [raises, State.dataAddress, regCount]
  split <;> simp only [reduceCtorEq, iff_true, iff_false, false_or] <;> omega

/-! ### What each instruction with a check does -/

theorem execDrw_ok {s : State} {x y n : Nibble} (h : raises (.drw x y n) s = none) :
    execDrw x y n s = .next ((s.showFb ((s.spriteOf x y n).foldl flipPixel s.fb)).writeFlag
      (collisionFlag s.fb (s.spriteOf x y n))).advance := by
  rw [execDrw, if_pos ((inBounds_drw s x y n).mpr h)]

theorem execLdB_ok {s : State} {x : Nibble} (h : raises (.ldB x) s = none) : execLdB x s =
    .next (s.writeMem (s.mem.writeBytes s.dataAddress (decimalDigits (s.readV x)))).advance := by
  rw [execLdB, State.storeAtI, if_pos ((inBounds_ldB s x).mpr h)]

theorem execStRegs_ok {s : State} {x : Nibble} (h : raises (.stRegs x) s = none) : execStRegs x s =
    .next (s.writeMem (s.mem.writeBytes s.dataAddress (s.regRange x))).advance := by
  rw [execStRegs, State.storeAtI, if_pos ((inBounds_stRegs s x).mpr h)]

theorem execLdRegs_ok {s : State} {x : Nibble} (h : raises (.ldRegs x) s = none) : execLdRegs x s =
    .next (s.writeRegs 0 (s.mem.readBytes s.dataAddress (regCount x))).advance := by
  rw [execLdRegs, if_pos ((inBounds_ldRegs s x).mpr h)]

theorem execRet_ok {s : State} (h0 : 0 < s.sp.toNat) (h : s.sp.toNat - 1 < 16) :
    execRet s = .next (s.pop.jump (s.readSlot (s.sp.toNat - 1) h + 2#16)) := by
  have : s.sp ≠ 0#5 := by intro e; rw [e] at h0; exact absurd h0 (by decide)
  rw [execRet, if_neg this, dif_pos h]

theorem execCall_ok {s : State} (nnn : Imm12) (h : s.sp.toNat < 16) :
    execCall nnn s = .next ((s.push h s.pc).jump (addressOf nnn)) := by
  have : s.sp ≠ 16#5 := by intro e; rw [e] at h; exact absurd h (by decide)
  rw [execCall, if_neg this, dif_pos h]

/-- An instruction whose condition of R216 holds raises. -/
theorem exec_raises {i : Instr} {s : State} {c : TrapCause} (h : raises i s = some c) :
    exec i s = .next (s.takeTrap c s.ir) := by
  cases i
  case ret =>
    simp only [raises] at h
    split at h
    · next hs => cases h; simp [exec, execRet, hs, raise]
    · cases h
  case call nnn =>
    simp only [raises] at h
    split at h
    · next hs => cases h; simp [exec, execCall, hs, raise]
    · cases h
  case drw x y n =>
    have hb : ¬ inBounds s.dataAddress n.toNat = true := by rw [inBounds_drw s x y n, h]; simp
    have hc : c = .memoryOutOfBounds := by simp only [raises] at h; split at h <;> cases h; rfl
    simp only [exec, execDrw, if_neg hb, raise, hc]
  case ldB x =>
    have hb : ¬ inBounds s.dataAddress (decimalDigits (s.readV x)).length = true := by rw [inBounds_ldB s x, h]; simp
    have hc : c = .memoryOutOfBounds := by simp only [raises] at h; split at h <;> cases h; rfl
    simp only [exec, execLdB, State.storeAtI, if_neg hb, raise, hc]
  case stRegs x =>
    have hb : ¬ inBounds s.dataAddress (s.regRange x).length = true := by rw [inBounds_stRegs s x, h]; simp
    have hc : c = .memoryOutOfBounds := by simp only [raises] at h; split at h <;> cases h; rfl
    simp only [exec, execStRegs, State.storeAtI, if_neg hb, raise, hc]
  case ldRegs x =>
    have hb : ¬ inBounds s.dataAddress (regCount x) = true := by rw [inBounds_ldRegs s x, h]; simp
    have hc : c = .memoryOutOfBounds := by simp only [raises] at h; split at h <;> cases h; rfl
    simp only [exec, execLdRegs, if_neg hb, raise, hc]
  all_goals simp [raises] at h

/-- What every instruction that answers a next state keeps: it has raised, or it has left the instruction register, the
fault registers and the model's schedule and frames alone, and `RUN` too unless it is FX0A. -/
theorem exec_cases {i : Instr} {s t : State} (h : exec i s = .next t) :
    (∃ c, raises i s = some c ∧ t = s.takeTrap c s.ir) ∨
    (raises i s = none ∧ t.schedule = s.schedule ∧ t.ir = s.ir ∧ t.frames = s.frames ∧ t.faultCause = s.faultCause ∧
      t.faultInstr = s.faultInstr ∧ t.faultPc = s.faultPc ∧
      ((t.run = s.run ∧ ∀ x, i ≠ .ldVxK x) ∨ (t.run = .awaitKey ∧ ∃ x, i = .ldVxK x))) := by
  cases hr : raises i s with
  | some c =>
    rw [exec_raises hr] at h
    cases h
    exact .inl ⟨c, rfl, rfl⟩
  | none =>
    refine .inr ⟨rfl, ?_⟩
    cases i
    case ret =>
      have h0 : s.sp ≠ 0#5 := by intro e; simp [raises, e] at hr
      simp only [exec, execRet, if_neg h0] at h
      split at h <;> cases h
      simp
    case call nnn =>
      have h0 : s.sp ≠ 16#5 := by intro e; simp [raises, e] at hr
      simp only [exec, execCall, if_neg h0] at h
      split at h <;> cases h
      simp
    case drw x y n => rw [exec, execDrw_ok hr] at h; cases h; simp
    case ldB x => rw [exec, execLdB_ok hr] at h; cases h; simp
    case stRegs x => rw [exec, execStRegs_ok hr] at h; cases h; simp
    case ldRegs x => rw [exec, execLdRegs_ok hr] at h; cases h; simp
    all_goals
      simp only [exec, execCls, execJp, execSeNn, execSneNn, execSeVy, execSneVy, execJpV0, execLdNn, execAddNn, execLdVy,
        execOr, execAnd, execXor, execAddVy, execSub, execShr, execSubn, execShl, execRnd, execLdI, execAddI, execLdF,
        execSkp, execSknp, execLdVxK, execLdVxDt, execLdDtVx, execLdStVx, Host.Outcome.next.injEq] at h
      subst h
      simp

/-! ### Steps -/

/-- An instruction step of the core, taken apart (R210). -/
theorem instructionStep_cases {s t : State} (h : instructionStep s = .next t) :
    (s.run ≠ .running ∧ t = s) ∨
    (s.run = .running ∧ s.fetch = none ∧ t = s.takeTrap .memoryOutOfBounds 0x0000#16) ∨
    (∃ w e, s.run = .running ∧ s.fetch = some w ∧ decodeWord w = .error e ∧
      t = (s.writeIr w).takeTrap .illegalOpcode w) ∨
    (∃ w i u, s.run = .running ∧ s.fetch = some w ∧ decodeWord w = .ok i ∧ exec i (s.writeIr w) = .next u ∧
      t = u.finish) := by
  unfold instructionStep at h
  split at h
  · next hr =>
    split at h
    · next hf => cases h; exact .inr (.inl ⟨hr, hf, rfl⟩)
    · next w hf =>
      unfold runWord at h
      split at h
      · next i hd =>
        unfold executeAndRender at h
        split at h <;> cases h
        next u hu => exact .inr (.inr (.inr ⟨w, i, u, hr, hf, hd, hu, rfl⟩))
      · next e hd => cases h; exact .inr (.inr (.inl ⟨w, e, hr, hf, hd, rfl⟩))
  · next hr => cases h; exact .inl ⟨hr, rfl⟩

/-- A step of the machine is the step of the core or the first scheduled step (R211). -/
theorem step_nil {s : State} (h : s.schedule = []) : step s = instructionStep s := by
  simp [step, nextStep, h]

theorem step_cons {s : State} {e : MachineStep} {rest : List MachineStep} (h : s.schedule = e :: rest) :
    step s = machineStep e { s with schedule := rest } := by
  simp [step, nextStep, h]

/-- A machine step is the core's own instruction step, on the state without it, or the step of another agent. -/
theorem step_cases {s t : State} (h : step s = .next t) :
    (s.coreNext ∧ instructionStep { s with schedule := s.schedule.tail } = .next t) ∨
    (∃ rest, s.schedule = .timerTick :: rest ∧ t = State.timerTick { s with schedule := rest }) ∨
    (∃ k rest, s.schedule = .press k :: rest ∧ t = State.press { s with schedule := rest } k) ∨
    (∃ k rest, s.schedule = .release k :: rest ∧ t = State.release { s with schedule := rest } k) ∨
    (∃ rest, s.schedule = .stop :: rest ∧ t = State.stop { s with schedule := rest }) ∨
    (∃ rom rest, s.schedule = .reset rom :: rest ∧ romWellFormed rom = true ∧
      t = { State.ofRom rom with rnd := s.rnd, draws := s.draws, schedule := rest, frames := s.frames }) := by
  cases hs : s.schedule with
  | nil =>
    refine .inl ⟨.inl hs, ?_⟩
    rw [step_nil hs] at h
    rw [List.tail_nil, ← hs]
    exact h
  | cons e rest =>
    rw [step_cons hs] at h
    cases e with
    | instruction => exact .inl ⟨.inr ⟨rest, hs⟩, h⟩
    | timerTick => cases h; exact .inr (.inl ⟨rest, rfl, rfl⟩)
    | press k => cases h; exact .inr (.inr (.inl ⟨k, rest, rfl, rfl⟩))
    | release k => cases h; exact .inr (.inr (.inr (.inl ⟨k, rest, rfl, rfl⟩)))
    | stop => cases h; exact .inr (.inr (.inr (.inr (.inl ⟨rest, rfl, rfl⟩))))
    | reset rom =>
      simp only [machineStep, State.resetWith] at h
      split at h <;> cases h
      next hw => exact .inr (.inr (.inr (.inr (.inr ⟨rom, rest, rfl, hw, rfl⟩))))

/-- What the machine steps of the other agents keep of the machine's own field. -/
theorem finish_schedule (s : State) : s.finish.schedule = s.schedule := by
  unfold State.finish State.render; split <;> [rfl; (split <;> rfl)]

theorem finish_eq (s : State) : s.finish = s ∨ s.finish = { s with frames := s.frames ++ [s.fb], redraw := false } := by
  unfold State.finish State.render; split <;> [exact .inl rfl; (split <;> [exact .inr rfl; exact .inl rfl])]

/-! ### The end of a step and its beginning -/

@[simp] theorem finish_mem (s : State) : s.finish.mem = s.mem := by rcases finish_eq s with h | h <;> rw [h]
@[simp] theorem finish_fb (s : State) : s.finish.fb = s.fb := by rcases finish_eq s with h | h <;> rw [h]
@[simp] theorem finish_keys (s : State) : s.finish.keys = s.keys := by rcases finish_eq s with h | h <;> rw [h]
@[simp] theorem finish_run (s : State) : s.finish.run = s.run := by rcases finish_eq s with h | h <;> rw [h]
@[simp] theorem finish_dt (s : State) : s.finish.dt = s.dt := by rcases finish_eq s with h | h <;> rw [h]
@[simp] theorem finish_st (s : State) : s.finish.st = s.st := by rcases finish_eq s with h | h <;> rw [h]
@[simp] theorem finish_pc (s : State) : s.finish.pc = s.pc := by rcases finish_eq s with h | h <;> rw [h]
@[simp] theorem finish_sp (s : State) : s.finish.sp = s.sp := by rcases finish_eq s with h | h <;> rw [h]
@[simp] theorem finish_stack (s : State) : s.finish.stack = s.stack := by rcases finish_eq s with h | h <;> rw [h]
@[simp] theorem finish_ir (s : State) : s.finish.ir = s.ir := by rcases finish_eq s with h | h <;> rw [h]
@[simp] theorem finish_faultCause (s : State) : s.finish.faultCause = s.faultCause := by
  rcases finish_eq s with h | h <;> rw [h]
@[simp] theorem finish_faultInstr (s : State) : s.finish.faultInstr = s.faultInstr := by
  rcases finish_eq s with h | h <;> rw [h]
@[simp] theorem finish_faultPc (s : State) : s.finish.faultPc = s.faultPc := by
  rcases finish_eq s with h | h <;> rw [h]

/-- Fetching changes no condition of R216. -/
theorem raises_fetched (i : Instr) (s : State) (w : Word) : raises i (s.fetched w) = raises i s := by
  cases i <;> rfl

/-- When the core's step comes next, the machine takes it. -/
theorem step_coreNext {s : State} (h : s.coreNext) :
    step s = instructionStep { s with schedule := s.schedule.tail } := by
  rcases h with h | ⟨r, h⟩
  · rw [step_nil h, h]
    congr 1
    cases s
    simp only at h
    simp [h]
  · rw [step_cons h, h]
    rfl

/-- A word that fits in `MEM` was fetched at most at 0xFFE (R91). -/
theorem fetch_some {s : State} {w : Word} (h : s.fetch = some w) : s.pc.toNat ≤ 0xFFE := by
  unfold State.fetch at h
  split at h
  · cases h
  · omega

/-- Trap entry writes `RUN` and the fault registers and nothing else (R217). -/
theorem takeTrap_onlyTraps (s : State) (c : TrapCause) (w : Word) : OnlyTraps s (s.takeTrap c w) := by
  intro l h1 h2 h3 h4
  cases l <;> simp_all [Loc.same]

/-- The pixels of the sprite an instruction draws, read from memory at `I` (R181). -/
theorem mem_spriteOf (s : State) (x y n : Nibble) (k : Nat) : k ∈ s.spriteOf x y n ↔
    ∃ r c, r < n.toNat ∧ c < 8 ∧ (s.mem.read (s.i.toNat + r)).getLsbD (7 - c) = true ∧
      k = fbIndex ((s.readV x).toNat + c) ((s.readV y).toNat + r) := by
  rw [State.spriteOf, mem_spritePixels]
  constructor
  · rintro ⟨r, c, h, hc, hb, e⟩
    rw [Memory.getElem_readBytes] at hb
    exact ⟨r, c, by simpa using h, hc, hb, e⟩
  · rintro ⟨r, c, h, hc, hb, e⟩
    refine ⟨r, c, by simpa using h, hc, ?_, e⟩
    rw [Memory.getElem_readBytes]
    exact hb

end Sys2Proof.Machine
end

