-- ==== Sys2Proof/Tests/Slice0.lean ====
section
/-! SUPPORT. Tests: words written out from the spec's encodings, vectors of spec/95_test_vectors.md (each comment gives
the vector), and for every obligation with hypotheses a witness that meets them. -/

namespace Sys2Proof.Machine

/-! ### Helpers -/

/-- Reset with the word under test at 0x200 (the convention of spec/95_test_vectors.md). -/
def testWord (w : Word) : State := State.ofRom [highByte w, lowByte w]

/-- A register loaded before the step. -/
def State.withV (s : State) (x : Nibble) (b : Byte) : State := s.writeV x b

/-- Bytes placed in memory before the step. -/
def State.withMem (s : State) (a : Nat) (xs : List Byte) : State := s.writeMem (s.mem.writeBytes a xs)

/-- What is seen of the next state, if there is one. -/
def seen {α : Type} (f : State → α) (o : Host.Outcome State Fault Refusal) : Option α :=
  match o with
  | .next t => some (f t)
  | .fault _ => none
  | .refused _ => none

/-- The state an outcome answers, or the given one. -/
def stateOf (s : State) (o : Host.Outcome State Fault Refusal) : State :=
  match o with
  | .next t => t
  | .fault _ => s
  | .refused _ => s

/-- The fault registers and `RUN`. -/
def trapSeen (t : State) : RunState × BitVec 3 × Word × Word × Word :=
  (t.run, t.faultCause, t.faultInstr, t.faultPc, t.pc)

/-! ### Well-formedness: an ill-formed image is refused (R77); the operands of an instruction are well-formed by their
types, so `Instr.wellFormed` has no ill-formed term -/

theorem test_rom_too_long : romWellFormed (List.replicate 3585 0x00#8) = false := by
  rw [romWellFormed, List.length_replicate]; decide

theorem test_rom_longest : romWellFormed (List.replicate 3584 0x00#8) = true := by
  rw [romWellFormed, List.length_replicate]; decide

theorem test_instr_wellFormed : Instr.wellFormed (.drw 0xF#4 0xF#4 0xF#4) = true := by decide

/-! ### Decoding: words written out bit by bit from R96 -/

theorem test_decode_family0 : decodeWord 0b0000000011100000#16 = .ok (.cls) := by decide
theorem test_decode_ret : decodeWord 0b0000000011101110#16 = .ok (.ret) := by decide
theorem test_decode_family1 : decodeWord 0b0001101010111100#16 = .ok (.jp 0xABC#12) := by decide
theorem test_decode_family2 : decodeWord 0b0010101010111100#16 = .ok (.call 0xABC#12) := by decide
theorem test_decode_family3 : decodeWord 0b0011001100101010#16 = .ok (.seNn 0x3#4 0x2A#8) := by decide
theorem test_decode_family4 : decodeWord 0b0100001100101010#16 = .ok (.sneNn 0x3#4 0x2A#8) := by decide
theorem test_decode_family5 : decodeWord 0b0101000100100000#16 = .ok (.seVy 0x1#4 0x2#4) := by decide
theorem test_decode_family6 : decodeWord 0b0110101000101111#16 = .ok (.ldNn 0xA#4 0x2F#8) := by decide
theorem test_decode_family7 : decodeWord 0b0111000100100000#16 = .ok (.addNn 0x1#4 0x20#8) := by decide
theorem test_decode_family8_0 : decodeWord 0b1000000100100000#16 = .ok (.ldVy 0x1#4 0x2#4) := by decide
theorem test_decode_family8_1 : decodeWord 0b1000000100100001#16 = .ok (.or 0x1#4 0x2#4) := by decide
theorem test_decode_family8_2 : decodeWord 0b1000000100100010#16 = .ok (.and 0x1#4 0x2#4) := by decide
theorem test_decode_family8_3 : decodeWord 0b1000000100100011#16 = .ok (.xor 0x1#4 0x2#4) := by decide
theorem test_decode_family8_4 : decodeWord 0b1000000100100100#16 = .ok (.addVy 0x1#4 0x2#4) := by decide
theorem test_decode_family8_5 : decodeWord 0b1000000100100101#16 = .ok (.sub 0x1#4 0x2#4) := by decide
theorem test_decode_family8_6 : decodeWord 0b1000000100100110#16 = .ok (.shr 0x1#4 0x2#4) := by decide
theorem test_decode_family8_7 : decodeWord 0b1000000100100111#16 = .ok (.subn 0x1#4 0x2#4) := by decide
theorem test_decode_family8_e : decodeWord 0b1000000100101110#16 = .ok (.shl 0x1#4 0x2#4) := by decide
theorem test_decode_family9 : decodeWord 0b1001000100100000#16 = .ok (.sneVy 0x1#4 0x2#4) := by decide
theorem test_decode_familyA : decodeWord 0b1010001100000000#16 = .ok (.ldI 0x300#12) := by decide
theorem test_decode_familyB : decodeWord 0b1011001100000000#16 = .ok (.jpV0 0x300#12) := by decide
theorem test_decode_familyC : decodeWord 0b1100001100001111#16 = .ok (.rnd 0x3#4 0x0F#8) := by decide
theorem test_decode_familyD : decodeWord 0b1101000100100101#16 = .ok (.drw 0x1#4 0x2#4 0x5#4) := by decide
theorem test_decode_familyE_9e : decodeWord 0b1110001010011110#16 = .ok (.skp 0x2#4) := by decide
theorem test_decode_familyE_a1 : decodeWord 0b1110001010100001#16 = .ok (.sknp 0x2#4) := by decide
theorem test_decode_familyF_07 : decodeWord 0b1111010000000111#16 = .ok (.ldVxDt 0x4#4) := by decide
theorem test_decode_familyF_0a : decodeWord 0b1111001100001010#16 = .ok (.ldVxK 0x3#4) := by decide
theorem test_decode_familyF_15 : decodeWord 0b1111010000010101#16 = .ok (.ldDtVx 0x4#4) := by decide
theorem test_decode_familyF_18 : decodeWord 0b1111010000011000#16 = .ok (.ldStVx 0x4#4) := by decide
theorem test_decode_familyF_1e : decodeWord 0b1111001000011110#16 = .ok (.addI 0x2#4) := by decide
theorem test_decode_familyF_29 : decodeWord 0b1111010000101001#16 = .ok (.ldF 0x4#4) := by decide
theorem test_decode_familyF_33 : decodeWord 0b1111010100110011#16 = .ok (.ldB 0x5#4) := by decide
theorem test_decode_familyF_55 : decodeWord 0b1111001001010101#16 = .ok (.stRegs 0x2#4) := by decide
theorem test_decode_familyF_65 : decodeWord 0b1111000101100101#16 = .ok (.ldRegs 0x1#4) := by decide

-- IL1 to IL8
theorem test_decode_illegal :
    decodeWord 0x0000#16 = .error (.illegalWord 0x0000#16) ∧
    decodeWord 0x00E1#16 = .error (.illegalWord 0x00E1#16) ∧
    decodeWord 0x0123#16 = .error (.illegalWord 0x0123#16) ∧
    decodeWord 0xF000#16 = .error (.illegalWord 0xF000#16) ∧
    decodeWord 0xFF75#16 = .error (.illegalWord 0xFF75#16) ∧
    decodeWord 0xE0A2#16 = .error (.illegalWord 0xE0A2#16) ∧
    decodeWord 0x8128#16 = .error (.illegalWord 0x8128#16) ∧
    decodeWord 0x812F#16 = .error (.illegalWord 0x812F#16) ∧
    decodeWord 0x5121#16 = .error (.illegalWord 0x5121#16) ∧
    decodeWord 0x9125#16 = .error (.illegalWord 0x9125#16) := by decide

-- R62: the byte at the lower address is the more significant
theorem test_decode_bytes : decode [0xA3#8, 0x00#8, 0x77#8] = .ok (.ldI 0x300#12, [0x77#8]) := by decide

-- R90: one byte is no instruction
theorem test_decode_truncated : decode [0xA3#8] = .error .truncated := by decide

theorem test_table_word : decodeTableWord 16 0x6A2F = some (.ldNn 0xA#4 0x2F#8) := by decide

theorem test_fetch_word : seen (·.readV 0xA#4) (step (State.reset.withFetchWord 16 0x6A2F)) = some 0x2F#8 := by decide

/-! ### Vectors of spec/95_test_vectors.md, one step each -/

-- CF1
theorem test_ret :
    seen (fun t => (t.pc, t.sp, t.stack[0]))
      (step ({ (testWord 0x0000#16).withMem 0x300 [0x00#8, 0xEE#8]
        with stack := (State.reset.stack).set 0 0x0200#16, sp := 1#5, pc := 0x0300#16 })) =
    some (0x0202#16, 0#5, 0x0200#16) := by decide
-- CF2
theorem test_ret_underflow :
    seen trapSeen
      (step (testWord 0x00EE#16)) =
    some (.halted, 4#3, 0x00EE#16, 0x0200#16, 0x0200#16) := by decide
-- CF4
theorem test_jp : seen (fun t => t.pc) (step (testWord 0x1234#16)) = some 0x0234#16 := by decide
-- CF8
theorem test_call :
    seen (fun t => (t.stack[15], t.sp, t.pc))
      (step ({ (testWord 0x0000#16).withMem 0x456 [0x23#8, 0x00#8]
        with sp := 15#5, pc := 0x0456#16 })) =
    some (0x0456#16, 16#5, 0x0300#16) := by decide
-- CF9
theorem test_call_overflow :
    seen trapSeen
      (step ({ testWord 0x2300#16
        with sp := 16#5 })) =
    some (.halted, 3#3, 0x2300#16, 0x0200#16, 0x0200#16) := by decide
-- CF10
theorem test_seNn_skips : seen (fun t => t.pc) (step ((testWord 0x332A#16).withV 0x3#4 0x2A#8)) = some 0x0204#16 := by decide
-- CF11
theorem test_seNn : seen (fun t => t.pc) (step ((testWord 0x332A#16).withV 0x3#4 0x2B#8)) = some 0x0202#16 := by decide
-- CF12
theorem test_sneNn : seen (fun t => t.pc) (step ((testWord 0x432A#16).withV 0x3#4 0x2A#8)) = some 0x0202#16 := by decide
-- CF13
theorem test_sneNn_skips : seen (fun t => t.pc) (step (testWord 0x432A#16)) = some 0x0204#16 := by decide
-- CF14
theorem test_seVy_skips :
    seen (fun t => t.pc)
      (step (((testWord 0x5120#16).withV 0x1#4 0x07#8).withV 0x2#4 0x07#8)) =
    some 0x0204#16 := by decide
-- CF15
theorem test_seVy :
    seen (fun t => t.pc)
      (step (((testWord 0x5120#16).withV 0x1#4 0x07#8).withV 0x2#4 0x08#8)) =
    some 0x0202#16 := by decide
-- CF18
theorem test_sneVy_skips :
    seen (fun t => t.pc)
      (step (((testWord 0x9120#16).withV 0x1#4 0x07#8).withV 0x2#4 0x08#8)) =
    some 0x0204#16 := by decide
-- CF19
theorem test_sneVy :
    seen (fun t => t.pc)
      (step (((testWord 0x9120#16).withV 0x1#4 0x07#8).withV 0x2#4 0x07#8)) =
    some 0x0202#16 := by decide
-- CF22
theorem test_jpV0_wraps : seen (fun t => t.pc) (step ((testWord 0xBFFF#16).withV 0x0#4 0xFF#8)) = some 0x00FE#16 := by decide
-- CF25
theorem test_fetch_fault :
    seen trapSeen
      (step ({ testWord 0x0000#16
        with pc := 0x0FFF#16 })) =
    some (.halted, 2#3, 0x0000#16, 0x0FFF#16, 0x0FFF#16) := by decide
-- CF27
theorem test_odd_pc :
    seen (fun t => (t.readV 0xA#4, t.pc))
      (step ({ (testWord 0x0000#16).withMem 0x201 [0x6A#8, 0x55#8]
        with pc := 0x0201#16 })) =
    some (0x55#8, 0x0203#16) := by decide
-- AL1
theorem test_ldNn : seen (fun t => (t.readV 0xA#4, t.pc)) (step (testWord 0x6A2F#16)) = some (0x2F#8, 0x0202#16) := by decide
-- AL4
theorem test_addNn_keeps_vf :
    seen (fun t => (t.readV 0x1#4, t.readV 0xF#4, t.pc))
      (step (((testWord 0x7101#16).withV 0x1#4 0xFF#8).withV 0xF#4 0x55#8)) =
    some (0x00#8, 0x55#8, 0x0202#16) := by decide
-- AL6
theorem test_ldVy :
    seen (fun t => (t.readV 0x1#4, t.pc))
      (step ((testWord 0x8120#16).withV 0x2#4 0x55#8)) =
    some (0x55#8, 0x0202#16) := by decide
-- AL7
theorem test_or :
    seen (fun t => (t.readV 0x1#4, t.readV 0xF#4, t.pc))
      (step ((((testWord 0x8121#16).withV 0x1#4 0xF0#8).withV 0x2#4 0x0F#8).withV 0xF#4 0x77#8)) =
    some (0xFF#8, 0x77#8, 0x0202#16) := by decide
-- AL8
theorem test_and :
    seen (fun t => (t.readV 0x1#4, t.readV 0xF#4, t.pc))
      (step ((((testWord 0x8122#16).withV 0x1#4 0xF3#8).withV 0x2#4 0x3F#8).withV 0xF#4 0x77#8)) =
    some (0x33#8, 0x77#8, 0x0202#16) := by decide
-- AL9
theorem test_xor :
    seen (fun t => (t.readV 0x1#4, t.readV 0xF#4, t.pc))
      (step ((((testWord 0x8123#16).withV 0x1#4 0xFF#8).withV 0x2#4 0x0F#8).withV 0xF#4 0x77#8)) =
    some (0xF0#8, 0x77#8, 0x0202#16) := by decide
-- AL11
theorem test_addVy :
    seen (fun t => (t.readV 0x1#4, t.readV 0xF#4, t.pc))
      (step (((testWord 0x8124#16).withV 0x1#4 0xFF#8).withV 0x2#4 0x02#8)) =
    some (0x01#8, 0x01#8, 0x0202#16) := by decide
-- AL16
theorem test_addVy_flag_wins :
    seen (fun t => (t.readV 0xF#4, t.pc))
      (step (((testWord 0x8F14#16).withV 0xF#4 0x10#8).withV 0x1#4 0x20#8)) =
    some (0x00#8, 0x0202#16) := by decide
-- AL19
theorem test_sub :
    seen (fun t => (t.readV 0x1#4, t.readV 0xF#4, t.pc))
      (step ((((testWord 0x8125#16).withV 0x1#4 0x03#8).withV 0x2#4 0x05#8).withV 0xF#4 0x01#8)) =
    some (0xFE#8, 0x00#8, 0x0202#16) := by decide
-- AL20
theorem test_sub_strict :
    seen (fun t => (t.readV 0x1#4, t.readV 0xF#4, t.pc))
      (step ((((testWord 0x8125#16).withV 0x1#4 0x07#8).withV 0x2#4 0x07#8).withV 0xF#4 0x01#8)) =
    some (0x00#8, 0x00#8, 0x0202#16) := by decide
-- AL24
theorem test_shr_ignores_y :
    seen (fun t => (t.readV 0x1#4, t.readV 0xF#4, t.readV 0x2#4, t.pc))
      (step (((testWord 0x8126#16).withV 0x1#4 0x81#8).withV 0x2#4 0xEE#8)) =
    some (0x40#8, 0x01#8, 0xEE#8, 0x0202#16) := by decide
-- AL26
theorem test_shr_value_wins :
    seen (fun t => (t.readV 0xF#4, t.pc))
      (step ((testWord 0x8F06#16).withV 0xF#4 0x07#8)) =
    some (0x03#8, 0x0202#16) := by decide
-- AL27
theorem test_subn :
    seen (fun t => (t.readV 0x1#4, t.readV 0xF#4, t.pc))
      (step (((testWord 0x8127#16).withV 0x1#4 0x03#8).withV 0x2#4 0x05#8)) =
    some (0x02#8, 0x01#8, 0x0202#16) := by decide
-- AL30
theorem test_subn_flag_wins :
    seen (fun t => (t.readV 0xF#4, t.pc))
      (step (((testWord 0x8F17#16).withV 0xF#4 0x03#8).withV 0x1#4 0x05#8)) =
    some (0x01#8, 0x0202#16) := by decide
-- AL31
theorem test_shl_flag_is_one :
    seen (fun t => (t.readV 0x1#4, t.readV 0xF#4, t.pc))
      (step ((testWord 0x810E#16).withV 0x1#4 0xC1#8)) =
    some (0x82#8, 0x01#8, 0x0202#16) := by decide
-- AL34
theorem test_shl_value_wins :
    seen (fun t => (t.readV 0xF#4, t.pc))
      (step ((testWord 0x8F0E#16).withV 0xF#4 0x81#8)) =
    some (0x02#8, 0x0202#16) := by decide
-- AL37
theorem test_rnd :
    seen (fun t => (t.readV 0x3#4, t.rnd))
      (step ({ testWord 0xC30F#16
        with rnd := [0xA7#8, 0x11#8] })) =
    some (0x07#8, [0x11#8]) := by decide
-- AL35
theorem test_illegal :
    seen trapSeen
      (step (testWord 0x8128#16)) =
    some (.halted, 1#3, 0x8128#16, 0x0200#16, 0x0200#16) := by decide
-- IM2
theorem test_ldI : seen (fun t => t.i) (step (testWord 0xAFFF#16)) = some 0x0FFF#16 := by decide
-- IM4
theorem test_addI_in_range :
    seen (fun t => (t.i, t.readV 0xF#4))
      (step ({ ((testWord 0xF21E#16).withV 0x2#4 0xFF#8).withV 0xF#4 0x01#8
        with i := 0x0F00#16 })) =
    some (0x0FFF#16, 0x00#8) := by decide
-- IM6
theorem test_addI_wraps :
    seen (fun t => (t.i, t.readV 0xF#4))
      (step ({ (testWord 0xF21E#16).withV 0x2#4 0x01#8
        with i := 0xFFFF#16 })) =
    some (0x0000#16, 0x01#8) := by decide
-- IM9
theorem test_ldF : seen (fun t => t.i) (step ((testWord 0xF429#16).withV 0x4#4 0x1A#8)) = some 0x0032#16 := by decide
-- IM14
theorem test_ldB_top :
    seen (fun t => t.mem.readBytes 0xFFD 3)
      (step ({ (testWord 0xF533#16).withV 0x5#4 0x7B#8
        with i := 0x0FFD#16 })) =
    some [0x01#8, 0x02#8, 0x03#8] := by decide
-- IM15
theorem test_ldB_fault :
    seen (fun t => (trapSeen t, t.mem.readBytes 0xFFE 2))
      (step ({ (testWord 0xF533#16).withV 0x5#4 0x7B#8
        with i := 0x0FFE#16 })) =
    some ((.halted, 2#3, 0xF533#16, 0x0200#16, 0x0200#16), [0x00#8, 0x00#8]) := by decide
-- IM16
theorem test_stRegs :
    seen (fun t => (t.mem.readBytes 0x300 4, t.i))
      (step ({ ((((testWord 0xF255#16).withV 0x0#4 0x11#8).withV 0x1#4 0x22#8).withV 0x2#4 0x33#8).withV 0x3#4 0x44#8
        with i := 0x0300#16 })) =
    some ([0x11#8, 0x22#8, 0x33#8, 0x00#8], 0x0300#16) := by decide
-- IM19
theorem test_stRegs_fault :
    seen (fun t => (t.faultCause, t.mem.read 0xFF1))
      (step ({ ((testWord 0xFF55#16).withV 0x0#4 0x01#8).withV 0xF#4 0x0F#8
        with i := 0x0FF1#16 })) =
    some (2#3, 0x00#8) := by decide
-- IM20
theorem test_ldRegs :
    seen (fun t => (t.readV 0x0#4, t.readV 0x1#4, t.readV 0x2#4, t.pc))
      (step ({ ((testWord 0xF165#16).withV 0x2#4 0x77#8).withMem 0x300 [0xAA#8, 0xBB#8, 0xCC#8]
        with i := 0x0300#16 })) =
    some (0xAA#8, 0xBB#8, 0x77#8, 0x0202#16) := by decide
-- IM21
theorem test_ldRegs_fault :
    seen (fun t => (t.faultCause, t.readV 0x0#4))
      (step ({ testWord 0xF165#16
        with i := 0x0FFF#16 })) =
    some (2#3, 0x00#8) := by decide
-- DS1
theorem test_cls :
    seen (fun t => (t.fb, t.frames, t.redraw))
      (step ({ testWord 0x00E0#16
        with fb := (1#2048 <<< fbIndex 0 0) ||| (1#2048 <<< fbIndex 63 31) })) =
    some (0#2048, [0#2048], false) := by decide +kernel
-- DS2
theorem test_cls_unconditional : seen (fun t => t.frames) (step (testWord 0x00E0#16)) = some [0#2048] := by decide +kernel
-- DS5
theorem test_drw_wraps_x :
    seen (fun t => ((List.range 8).map fun k => lit t.fb (fbIndex (60 + k) 0), lit t.fb (fbIndex 0 1),
      t.readV 0xF#4, t.frames.length))
      (step ({ ((testWord 0xD011#16).withV 0x0#4 0x3C#8).withMem 0x300 [0xFF#8]
        with i := 0x0300#16 })) =
    some (List.replicate 8 true, false, 0x00#8, 1) := by decide +kernel
-- DS4
theorem test_drw_collides :
    seen (fun t => (t.fb, t.readV 0xF#4))
      (step ({ (testWord 0xD011#16).withMem 0x300 [0xC0#8]
        with i := 0x0300#16, fb := 1#2048 <<< fbIndex 1 0 })) =
    some (1#2048, 0x01#8) := by decide +kernel
-- KP3
theorem test_skp :
    seen (fun t => (t.pc, t.keys))
      (step ({ (testWord 0xE29E#16).withV 0x2#4 0x35#8
        with keys := keySet 0#16 0x5#4 })) =
    some (0x0204#16, 0#16) := by decide
-- KP2
theorem test_skp_not_pressed :
    seen (fun t => t.pc)
      (step ((testWord 0xE29E#16).withV 0x2#4 0x05#8)) =
    some 0x0202#16 := by decide
-- KP4
theorem test_sknp_skips : seen (fun t => t.pc) (step ((testWord 0xE2A1#16).withV 0x2#4 0x05#8)) = some 0x0204#16 := by decide
-- KP5
theorem test_sknp_consumes :
    seen (fun t => (t.pc, t.keys))
      (step ({ (testWord 0xE2A1#16).withV 0x2#4 0x05#8
        with keys := keySet 0#16 0x5#4 })) =
    some (0x0202#16, 0#16) := by decide
-- KP7
theorem test_ldVxK :
    seen (fun t => (t.run, t.pc, t.readV 0x3#4, keyDown t.keys 0x1#4))
      (step ({ testWord 0xF30A#16
        with keys := keySet 0#16 0x1#4 })) =
    some (.awaitKey, 0x0200#16, 0x00#8, true) := by decide
-- KP9
theorem test_press_completes :
    seen (fun t => (t.readV 0x3#4, t.pc, keyDown t.keys 0x7#4, t.run))
      (step ({ testWord 0xF30A#16
        with run := .awaitKey, ir := 0xF30A#16, schedule := [.press 0x7#4] })) =
    some (0x07#8, 0x0202#16, true, .running) := by decide
-- KP11
theorem test_stop :
    seen trapSeen
      (step ({ testWord 0xF30A#16
        with run := .awaitKey, ir := 0xF30A#16, schedule := [.stop] })) =
    some (.halted, 0#3, 0x0000#16, 0x0000#16, 0x0200#16) := by decide
-- TM1
theorem test_ldVxDt :
    seen (fun t => (t.readV 0x4#4, t.pc))
      (step ({ testWord 0xF407#16
        with dt := 0x3C#8 })) =
    some (0x3C#8, 0x0202#16) := by decide
-- TM2
theorem test_ldDtVx :
    seen (fun t => (t.dt, t.pc))
      (step ((testWord 0xF415#16).withV 0x4#4 0x3C#8)) =
    some (0x3C#8, 0x0202#16) := by decide
-- TM3
theorem test_ldStVx :
    seen (fun t => (t.st, t.pc))
      (step ((testWord 0xF418#16).withV 0x4#4 0x05#8)) =
    some (0x05#8, 0x0202#16) := by decide
-- TT1
theorem test_tick :
    seen (fun t => (t.dt, t.st))
      (step ({ State.reset
        with dt := 0x02#8, st := 0x01#8, schedule := [.timerTick] })) =
    some (0x01#8, 0x00#8) := by decide
-- TT5
theorem test_tick_halted :
    seen (fun t => t.dt)
      (step ({ State.reset
        with dt := 0x02#8, run := .halted, schedule := [.timerTick] })) =
    some 0x02#8 := by decide
-- RS1
theorem test_reset :
    seen (fun t => (t.mem.readBytes 0x200 3, t.mem.readBytes 0x000 5, t.mem.read 0x050, t.run, t.faultCause, t.sp))
      (step ({ State.reset
        with schedule := [.reset [0x12#8, 0x00#8]], sp := 16#5, run := .halted, faultCause := 3#3 })) =
    some ([0x12#8, 0x00#8, 0x00#8], [0xF0#8, 0x90#8, 0x90#8, 0x90#8, 0xF0#8], 0x00#8, .running, 0#3, 0#5) := by decide

/-! ### Witnesses: for each obligation with hypotheses, states and operands that meet them; one theorem per clause at a
boundary of its range -/

/-- CALL 204 at 200, then `LD VA, 01` and RET at 204 (the program of `CallReturnRoundTrip`). -/
def callRom : List Byte := [0x22#8, 0x04#8, 0x00#8, 0x00#8, 0x6A#8, 0x01#8, 0x00#8, 0xEE#8]

/-- A core that waits for a key with `F30A` in `IR`. -/
def waitingState (sched : List MachineStep) : State :=
  { testWord 0xF30A#16 with run := .awaitKey, ir := 0xF30A#16, schedule := sched }

/-- A halted core. -/
def haltedState (sched : List MachineStep) : State := { testWord 0x00E0#16 with run := .halted, schedule := sched }

/-- The next step is the core's when nothing is scheduled. -/
theorem executes_of {s : State} {w : Word} {i : Instr} (hr : s.run = .running) (hs : s.schedule = [])
    (hf : s.fetch = some w) (hd : decodeWord w = .ok i) : s.executes w i := ⟨hr, .inl hs, hf, hd⟩

/-- No reset comes next when nothing is scheduled. -/
theorem not_resetNext_of {s : State} (hs : s.schedule = []) : ¬ s.resetNext := by
  rintro ⟨rom, rest, h⟩
  rw [hs] at h
  cases h

-- DecodeOfEncodeIsIdentity, EncodeOfDecodeIsIdentity, DecoderSelectsTheTableRow, IllegalWordsAreExactly
theorem test_wit_wellFormed : Instr.wellFormed (.addVy 0xF#4 0xF#4) = true := by decide
theorem test_wit_legal_word : decodeWord 0xFF65#16 = .ok (.ldRegs 0xF#4) := by decide
theorem test_wit_illegal_word : decodeWord 0xFFFF#16 = .error (.illegalWord 0xFFFF#16) := by decide

-- RetResumesAfterTheCallSite: SP = 1, 16 and 0
theorem test_wit_ret_one : let s := { State.reset with sp := 1#5 }; 0 < s.sp.toNat ∧ s.sp.toNat ≤ 16 := by decide
theorem test_wit_ret_full : let s := { State.reset with sp := 16#5 }; 0 < s.sp.toNat ∧ s.sp.toNat ≤ 16 := by decide
theorem test_wit_ret_empty : State.reset.sp = 0#5 := by decide

-- CallPushesTheCallSite: SP = 0, 15 and 16
theorem test_wit_call_empty : State.reset.sp.toNat < 16 := by decide
theorem test_wit_call_last : ({ State.reset with sp := 15#5 } : State).sp.toNat < 16 := by decide
theorem test_wit_call_full : ({ State.reset with sp := 16#5 } : State).sp = 16#5 := by decide

-- CallReturnRoundTrip: a call, one instruction inside it, and the return
def callS0 : State := State.ofRom callRom
def callS1 : State := stateOf callS0 (step callS0)
def callS2 : State := stateOf callS1 (step callS1)

theorem test_wit_round_trip :
    callS0.executes 0x2204#16 (.call 0x204#12) ∧ callS0.sp.toNat < 16 ∧ step callS0 = .next callS1 ∧
    WithinCall callS0.sp.toNat callS1 callS2 ∧ callS2.executes 0x00EE#16 .ret ∧
    callS2.sp.toNat = callS0.sp.toNat + 1 := by
  refine ⟨executes_of rfl rfl (by decide) (by decide), by decide, rfl, ?_, executes_of rfl rfl (by decide) (by decide),
    by decide⟩
  refine .next (t := callS1) (.here _) rfl (not_resetNext_of rfl) ?_
  intro w nnn h
  have hf : callS1.fetch = some 0x6A01#16 := by decide
  have h1 := h.2.2.1.symm.trans hf
  cases h1
  have h2 := h.2.2.2
  rw [show decodeWord 0x6A01#16 = .ok (.ldNn 0xA#4 0x01#8) by decide] at h2
  cases h2

-- AddWithCarryOut, SubtractSetsStrictFlag, ReverseSubtractSetsStrictFlag, ShiftsByOne: a destination that is not VF
theorem test_wit_not_vf : (0xE#4 : Nibble) ≠ vf := by decide

-- RandomByteUnderMask: a stream with a byte
theorem test_wit_stream : ({ State.reset with rnd := [0xA7#8] } : State).rnd = 0xA7#8 :: [] := by decide

-- VfWrittenOnlyAsListed
def vfState : State := testWord 0x6F07#16
theorem test_wit_vf_changes :
    exec (.ldNn vf 0x07#8) vfState = .next (stateOf vfState (exec (.ldNn vf 0x07#8) vfState)) ∧
    (stateOf vfState (exec (.ldNn vf 0x07#8) vfState)).readV vf ≠ vfState.readV vf := ⟨rfl, by decide⟩

-- DecimalDigitsStored, RegistersStored, RegistersLoaded: the last range inside memory and the first outside
theorem test_wit_wf : Memory.wf State.reset.mem := Memory.wf_nil
theorem test_wit_digits_last : ({ State.reset with i := 0x0FFD#16 } : State).i.toNat + 2 ≤ 0xFFF := by decide
theorem test_wit_digits_out : ({ State.reset with i := 0x0FFE#16 } : State).i.toNat + 2 > 0xFFF := by decide
theorem test_wit_range_last : ({ State.reset with i := 0x0FF0#16 } : State).i.toNat + (0xF#4).toNat ≤ 0xFFF := by decide
theorem test_wit_range_out : ({ State.reset with i := 0x0FF1#16 } : State).i.toNat + (0xF#4).toNat > 0xFFF := by decide

-- StoreThenFetchSeesNewBytes: IM23
def storeFetchS : State := { ((testWord 0xF155#16).withV 0x0#4 0x6A#8).withV 0x1#4 0x55#8 with i := 0x0202#16 }
def storeFetchT : State := stateOf storeFetchS (exec (.stRegs 0x1#4) storeFetchS)
theorem test_wit_store_fetch :
    Memory.wf storeFetchS.mem ∧ exec (.stRegs 0x1#4) storeFetchS = .next storeFetchT ∧ storeFetchT.run ≠ .halted ∧
    (0x0#4 : Nibble).toNat + 1 ≤ (0x1#4 : Nibble).toNat ∧
    storeFetchT.pc.toNat = storeFetchS.i.toNat + (0x0#4 : Nibble).toNat := by
  refine ⟨?_, rfl, by decide, by decide, by decide⟩
  exact Memory.wf_image (by decide)

-- SpacesReachedOnlyAsListed: one clause each
def spaceMem : State := { (testWord 0xF055#16).withV 0x0#4 0x11#8 with i := 0x0300#16 }
theorem test_wit_space_mem : step spaceMem = .next (stateOf spaceMem (step spaceMem)) ∧ ¬ spaceMem.resetNext ∧
    (stateOf spaceMem (step spaceMem)).mem ≠ spaceMem.mem := ⟨rfl, not_resetNext_of rfl, by decide⟩

def spaceFb : State := { testWord 0x00E0#16 with fb := 1#2048 }
theorem test_wit_space_fb : step spaceFb = .next (stateOf spaceFb (step spaceFb)) ∧ ¬ spaceFb.resetNext ∧
    (stateOf spaceFb (step spaceFb)).fb ≠ spaceFb.fb := ⟨rfl, not_resetNext_of rfl, by decide +kernel⟩

def spaceKey : State := { testWord 0xE09E#16 with keys := 1#16 }
theorem test_wit_space_released : step spaceKey = .next (stateOf spaceKey (step spaceKey)) ∧ ¬ spaceKey.resetNext ∧
    keyDown spaceKey.keys 0x0#4 = true ∧ keyDown (stateOf spaceKey (step spaceKey)).keys 0x0#4 = false :=
  ⟨rfl, not_resetNext_of rfl, by decide, by decide⟩

def spacePress : State := { State.reset with schedule := [.press 0xF#4] }
theorem test_wit_space_pressed : step spacePress = .next (stateOf spacePress (step spacePress)) ∧
    ¬ spacePress.resetNext ∧ keyDown spacePress.keys 0xF#4 = false ∧
    keyDown (stateOf spacePress (step spacePress)).keys 0xF#4 = true :=
  ⟨rfl, (by rintro ⟨rom, rest, h⟩; cases h), by decide, by decide⟩

-- SpriteDrawnByXor: no row with I = FFFF (DS8); the last row inside; the first row outside (DS10)
theorem test_wit_sprite_none : (0x0#4 : Nibble) = 0x0#4 := rfl
theorem test_wit_sprite_last : ({ State.reset with i := 0x0FF1#16 } : State).i.toNat + (0xF#4).toNat - 1 ≤ 0xFFF := by
  decide
theorem test_wit_sprite_out : (0x2#4 : Nibble) ≠ 0x0#4 ∧
    ({ State.reset with i := 0x0FFF#16 } : State).i.toNat + (0x2#4).toNat - 1 > 0xFFF := by decide
theorem test_wit_sprite_pixel : 14 < (0xF#4 : Nibble).toNat ∧ 7 < 8 := by decide

-- DrawingTwiceRestores: the digit 0 at (0, 0) (S7)
def twiceS : State := testWord 0xD015#16
theorem test_wit_twice : (0x0#4 : Nibble) ≠ vf ∧ (0x1#4 : Nibble) ≠ vf ∧
    exec (.drw 0x0#4 0x1#4 0x5#4) twiceS = .next (stateOf twiceS (exec (.drw 0x0#4 0x1#4 0x5#4) twiceS)) ∧
    (stateOf twiceS (exec (.drw 0x0#4 0x1#4 0x5#4) twiceS)).run ≠ .halted :=
  ⟨by decide, by decide, rfl, by decide⟩

-- SpriteBitsNeverCoincide: the last bit of the last row
theorem test_wit_sprite_bits : 14 < 15 ∧ 7 < 8 ∧ fbIndex (255 + 7) (255 + 14) = fbIndex (255 + 7) (255 + 14) := by decide

-- PressCompletesTheWait, WaitingCoreOnlyListens, KeyEventsChangeOneKey
theorem test_wit_waiting : (waitingState []).run = .awaitKey := rfl

-- KeyTestIsOneShot: S8
def oneShotS : State := { (testWord 0xE29E#16).withV 0x2#4 0x05#8 with keys := keySet 0#16 0x5#4 }
theorem test_wit_one_shot : exec (.skp 0x2#4) oneShotS = .next (stateOf oneShotS (exec (.skp 0x2#4) oneShotS)) := rfl

-- TimerTickDecrementsBoth: running and waiting
theorem test_wit_tick : State.reset.run ≠ .halted ∧ (waitingState []).run ≠ .halted := by decide

-- TicksCommuteWithOtherInstructions
theorem test_wit_commute : (testWord 0x8124#16).run = .running ∧ (testWord 0x8124#16).fetch = some 0x8124#16 ∧
    decodeWord 0x8124#16 = .ok (.addVy 0x1#4 0x2#4) ∧ (testWord 0x8124#16).sp.toNat ≤ 16 ∧
    raises (.addVy 0x1#4 0x2#4) (testWord 0x8124#16) = none ∧
    ∀ x, Instr.addVy 0x1#4 0x2#4 ≠ .ldVxDt x ∧ Instr.addVy 0x1#4 0x2#4 ≠ .ldDtVx x ∧
      Instr.addVy 0x1#4 0x2#4 ≠ .ldStVx x := by
  refine ⟨by decide, by decide, by decide, by decide, by decide, ?_⟩
  intro x
  exact ⟨nofun, nofun, nofun⟩

-- DelayTimerNeverRises: TM2
def dtRises : State := (testWord 0xF415#16).withV 0x4#4 0x3C#8
theorem test_wit_dt_rises : step dtRises = .next (stateOf dtRises (step dtRises)) ∧
    dtRises.dt.toNat < (stateOf dtRises (step dtRises)).dt.toNat := ⟨rfl, by decide⟩

-- TrapEntryLatchesAndHalts: each cause an instruction raises
theorem test_wit_raises_underflow : raises .ret State.reset = some .stackUnderflow := by decide
theorem test_wit_raises_overflow : raises (.call 0#12) { State.reset with sp := 16#5 } = some .stackOverflow := by decide
theorem test_wit_raises_bounds : raises (.drw 0x0#4 0x0#4 0x1#4) { State.reset with i := 0x1000#16 } =
    some .memoryOutOfBounds := by decide

-- OtherwiseEveryInstructionCompletes, PcAfterEachInstruction
theorem test_wit_completes : Memory.wf State.reset.mem ∧ State.reset.sp.toNat ≤ 16 ∧
    raises (.stRegs 0xF#4) { State.reset with i := 0x0FF0#16 } = none ∧ raises (.ldVxK 0x0#4) State.reset = none :=
  ⟨Memory.wf_nil, by decide, by decide, by decide⟩
theorem test_wit_pc_after : exec .cls State.reset = .next (stateOf State.reset (exec .cls State.reset)) ∧
    State.reset.sp.toNat ≤ 16 := ⟨rfl, by decide⟩

-- FetchReadsTwoBytesOrFaults: PC = FFE; PC = FFF by itself and scheduled before a tick
theorem test_wit_fetch_last : ({ State.reset with pc := 0x0FFE#16 } : State).pc.toNat ≤ 0xFFE := by decide
theorem test_wit_fetch_out : let s := { State.reset with pc := 0x0FFF#16 }
    s.run = .running ∧ s.coreNext ∧ s.pc.toNat > 0xFFE := ⟨rfl, .inl rfl, by decide⟩
theorem test_wit_fetch_out_scheduled :
    let s := { State.reset with pc := 0x0FFF#16, schedule := [.instruction, .timerTick] }
    s.run = .running ∧ s.coreNext ∧ s.pc.toNat > 0xFFE := ⟨rfl, .inr ⟨_, rfl⟩, by decide⟩

-- IllegalWordHalts: empty memory at reset (R262), by itself and scheduled before a tick
theorem test_wit_illegal : State.reset.run = .running ∧ State.reset.coreNext ∧
    State.reset.fetch = some 0x0000#16 ∧ ∀ r ∈ opcodeTable, r.selects 0x0000#16 = false :=
  ⟨rfl, .inl rfl, by decide, by decide⟩
theorem test_wit_illegal_scheduled : let s := { State.reset with schedule := [.instruction, .timerTick] }
    s.run = .running ∧ s.coreNext ∧ s.fetch = some 0x0000#16 ∧
    ∀ r ∈ opcodeTable, r.selects 0x0000#16 = false := ⟨rfl, .inr ⟨_, rfl⟩, by decide, by decide⟩

-- StepRunsDecodedInstruction
theorem test_wit_step_runs : (testWord 0x6A2F#16).run = .running ∧ (testWord 0x6A2F#16).coreNext ∧
    (testWord 0x6A2F#16).pc.toNat ≤ 0xFFE ∧ Instr.wellFormed (.ldNn 0xA#4 0x2F#8) ∧
    decode [(testWord 0x6A2F#16).mem.read (testWord 0x6A2F#16).pc.toNat,
      (testWord 0x6A2F#16).mem.read ((testWord 0x6A2F#16).pc.toNat + 1)] = .ok (.ldNn 0xA#4 0x2F#8, []) :=
  ⟨rfl, .inl rfl, by decide, by decide, by decide⟩

-- ScheduledStepsRunInOrder: a step of the core that is not enabled
theorem test_wit_schedule : (haltedState [.instruction, .stop]).schedule = .instruction :: [.stop] ∧
    (haltedState [.instruction, .stop]).run ≠ .running ∧
    step (haltedState [.instruction, .stop]) = .next (haltedState [.stop]) := ⟨rfl, by decide, rfl⟩

-- OneFramePerDisplayInstruction: a display instruction and another one
theorem test_wit_frame : (testWord 0x00E0#16).redraw = false ∧
    step (testWord 0x00E0#16) = .next (stateOf State.reset (step (testWord 0x00E0#16))) ∧
    ∃ w i, (testWord 0x00E0#16).executes w i ∧ (i = .cls ∨ ∃ x y n, i = .drw x y n) ∧
      raises i (testWord 0x00E0#16) = none :=
  ⟨rfl, rfl, 0x00E0#16, .cls, executes_of rfl rfl (by decide) (by decide), .inl rfl, rfl⟩
theorem test_wit_no_frame : State.reset.redraw = false ∧
    step State.reset = .next (stateOf State.reset (step State.reset)) ∧
    ¬ ∃ w i, State.reset.executes w i ∧ (i = .cls ∨ ∃ x y n, i = .drw x y n) ∧ raises i State.reset = none := by
  refine ⟨rfl, rfl, ?_⟩
  rintro ⟨w, i, h, _⟩
  have h1 := h.2.2.1.symm.trans (show State.reset.fetch = some 0x0000#16 by decide)
  cases h1
  have h2 := h.2.2.2
  rw [show decodeWord 0x0000#16 = .error (.illegalWord 0x0000#16) by decide] at h2
  cases h2

-- KeyEventsChangeOneKey. ResetStateValues, ResetRestoresEverything: `test_rom_longest` and the empty image
theorem test_wit_press_running : State.reset.run ≠ .awaitKey := by decide
theorem test_wit_rom_empty : romWellFormed [] = true := by decide
theorem test_wit_rom_bytes : romWellFormed [0x12#8, 0x00#8] = true ∧ 1 < [0x12#8, 0x00#8].length := by decide

-- HaltedIsTerminal
theorem test_wit_halted : (haltedState []).run = .halted ∧ ∀ rom, MachineStep.press 0x0#4 ≠ .reset rom :=
  ⟨rfl, fun _ => nofun⟩

-- RunFollowsTheStateMachine: each state of `RUN`
theorem test_wit_run_halted : step (haltedState []) = .next (haltedState []) ∧ ¬ (haltedState []).resetNext ∧
    (haltedState []).run = .halted := ⟨rfl, not_resetNext_of rfl, rfl⟩
theorem test_wit_run_waiting : step (waitingState []) = .next (waitingState []) ∧ ¬ (waitingState []).resetNext ∧
    (waitingState []).run = .awaitKey := ⟨rfl, not_resetNext_of rfl, rfl⟩
theorem test_wit_run_to_wait : let s := testWord 0xF30A#16
    step s = .next (stateOf s (step s)) ∧ ¬ s.resetNext ∧ s.run = .running ∧ (stateOf s (step s)).run = .awaitKey :=
  ⟨rfl, not_resetNext_of rfl, rfl, rfl⟩
theorem test_wit_run_to_halt : let s := testWord 0x00EE#16
    step s = .next (stateOf s (step s)) ∧ ¬ s.resetNext ∧ s.run = .running ∧ (stateOf s (step s)).run = .halted :=
  ⟨rfl, not_resetNext_of rfl, rfl, rfl⟩

-- SelfJumpIsTheEnd: CF5, by itself and scheduled before a tick
theorem test_wit_self_jump : (testWord 0x1200#16).atEnd 0x200#12 ∧ (testWord 0x1200#16).coreNext ∧
    (testWord 0x1200#16).redraw = false := ⟨⟨rfl, by decide, by decide⟩, .inl rfl, rfl⟩
theorem test_wit_self_jump_scheduled : let s := { testWord 0x1200#16 with schedule := [.instruction, .timerTick] }
    s.atEnd 0x200#12 ∧ s.coreNext ∧ s.redraw = false := ⟨⟨rfl, by decide, by decide⟩, .inr ⟨_, rfl⟩, rfl⟩

-- InvAfterReset: `test_rom_longest`. StepKeepsInv, StepNeverStops: the state after reset
theorem test_wit_inv : State.reset.Inv where
  memory := Memory.wf_nil
  stackPointer := by decide
  programCounter := by decide
  slots := by intro k h; simp [State.reset]
  redrawClear := rfl
  faultFree := by intro _; exact ⟨rfl, rfl, rfl⟩
  causeKnown := by decide
  faultAtPc := by intro h; exact absurd rfl h
  fetchFault := by intro h; exact absurd rfl h
  illegalCause := by intro h; exact absurd h (by decide)
  overflowCause := by intro h; exact absurd h (by decide)
  underflowCause := by intro h; exact absurd h (by decide)
  waiting := by intro h; cases h

theorem test_wit_inv_step : step State.reset = .next (stateOf State.reset (step State.reset)) ∧
    ∀ rom rest, State.reset.schedule = .reset rom :: rest → rom.length ≤ 3584 :=
  ⟨rfl, by intro rom rest h; cases h⟩

end Sys2Proof.Machine
end

/-! ## What one operation of the state leaves unchanged

One rule per state operation, over the places `Loc` of the state; the frame of an instruction (R13, R23) is their
composition. -/

namespace Sys2Proof.Machine

theorem Loc.same.trans {l : Loc} {s t u : State} (hst : l.same s t) (htu : l.same t u) : l.same s u := by
  cases l <;> exact Eq.trans htu hst

theorem same_writeV {l : Loc} {x : Nibble} (s : State) (b : Byte) (h : l ≠ .v x) : l.same s (s.writeV x b) := by
  cases l with
  | v y =>
    have hxy : x ≠ y := fun e => h (by rw [e])
    simp [Loc.same, hxy]
  | _ => rfl

theorem same_writeFlag {l : Loc} (s : State) (f : Byte) (h : l ≠ .v vf) : l.same s (s.writeFlag f) :=
  same_writeV s f h

theorem same_advance {l : Loc} (s : State) (h : l ≠ .pc) : l.same s s.advance := by
  cases l with
  | pc => exact absurd rfl h
  | _ => rfl

theorem same_jump {l : Loc} (s : State) (a : Word) (h : l ≠ .pc) : l.same s (s.jump a) := by
  cases l with
  | pc => exact absurd rfl h
  | _ => rfl

theorem same_skipIf {l : Loc} (s : State) (c : Prop) [Decidable c] (h : l ≠ .pc) : l.same s (s.skipIf c) := by
  cases l with
  | pc => exact absurd rfl h
  | _ => simp [Loc.same]

theorem same_writeI {l : Loc} (s : State) (a : Word) (h : l ≠ .i) : l.same s (s.writeI a) := by
  cases l with
  | i => exact absurd rfl h
  | _ => rfl

theorem same_writeDt {l : Loc} (s : State) (b : Byte) (h : l ≠ .dt) : l.same s (s.writeDt b) := by
  cases l with
  | dt => exact absurd rfl h
  | _ => rfl

theorem same_writeSt {l : Loc} (s : State) (b : Byte) (h : l ≠ .st) : l.same s (s.writeSt b) := by
  cases l with
  | st => exact absurd rfl h
  | _ => rfl

theorem same_writeRun {l : Loc} (s : State) (r : RunState) (h : l ≠ .run) : l.same s (s.writeRun r) := by
  cases l with
  | run => exact absurd rfl h
  | _ => rfl

theorem same_drawn {l : Loc} (s : State) (hr : l ≠ .rnd) (hd : l ≠ .draws) : l.same s s.drawn := by
  cases l with
  | rnd => exact absurd rfl hr
  | draws => exact absurd rfl hd
  | _ => rfl

theorem same_pop {l : Loc} (s : State) (h : l ≠ .sp) : l.same s s.pop := by
  cases l with
  | sp => exact absurd rfl h
  | _ => rfl

theorem same_push {l : Loc} (s : State) (hk : s.sp.toNat < 16) (a : Word) (hsp : l ≠ .sp)
    (hslot : l ≠ .slot ⟨s.sp.toNat, hk⟩) : l.same s (s.push hk a) := by
  cases l with
  | sp => exact absurd rfl hsp
  | slot k =>
    have hne : s.sp.toNat ≠ k.val := fun e => hslot (by simp [e])
    simp [Loc.same, hne]
  | _ => rfl

theorem same_consumeKey {l : Loc} {k : Nibble} (s : State) (h : l ≠ .key k) : l.same s (s.consumeKey k) := by
  cases l with
  | key j =>
    have hjk : j ≠ k := fun e => h (by rw [e])
    simp [Loc.same, keyDown_consumeKey, hjk]
  | _ => simp [Loc.same]

/-- A changed framebuffer is seen at the pixels in which it differs, and in `REDRAW`. -/
theorem same_showFb {l : Loc} (s : State) (fb : Frame) (hr : l ≠ .redraw)
    (hp : ∀ k, l = .pixel k → lit fb k = lit s.fb k) : l.same s (s.showFb fb) := by
  cases l with
  | redraw => exact absurd rfl hr
  | pixel k => exact hp k rfl
  | _ => rfl

/-- A changed memory is seen at the addresses that read differently. -/
theorem same_writeMem {l : Loc} (s : State) (m : Memory) (hm : ∀ a, l = .mem a → m.read a = s.mem.read a) :
    l.same s (s.writeMem m) := by
  cases l with
  | mem a => exact hm a rfl
  | _ => rfl

theorem same_writeRegs {l : Loc} (s : State) (xs : List Byte) (hlen : xs.length ≤ 16)
    (hv : ∀ k : Nibble, k.toNat < xs.length → l ≠ .v k) : l.same s (s.writeRegs 0 xs) := by
  cases l with
  | v y =>
    have hy : ¬ y.toNat < xs.length := fun hlt => hv y hlt rfl
    simp [Loc.same, writeRegs_readV, hlen, hy]
  | _ => simp [Loc.same]

/-- A pixel that is not among those flipped stays as it is. -/
theorem lit_foldl_flipPixel_of_notMem (ks : List Nat) (hks : ∀ k ∈ ks, k < 2048) (fb : Frame) {j : Nat} (hj : j ∉ ks) :
    lit (ks.foldl flipPixel fb) j = lit fb j := by
  induction ks generalizing fb with
  | nil => rfl
  | cons k rest ih =>
    obtain ⟨hjk, hrest⟩ := not_or.mp (mt List.mem_cons.mpr hj)
    rw [List.foldl_cons, ih (fun m hm => hks m (by simp [hm])) _ hrest,
      lit_flipPixel fb k j (hks k (by simp)), if_neg hjk]

end Sys2Proof.Machine

/-! ## What an instruction does: completion, inversion and frame -/

namespace Sys2Proof.Machine

variable {i : Instr} {s t : State}

/-! ### The instructions with a check, once they have completed -/

theorem exec_ret_completed (h : exec .ret s = .next t) (hr : raises .ret s = none) :
    ∃ hk : s.sp.toNat - 1 < 16, t = s.pop.jump (s.readSlot (s.sp.toNat - 1) hk + 2#16) := by
  have h0 : s.sp ≠ 0#5 := by simpa [raises] using hr
  simp only [exec, execRet, if_neg h0] at h
  split at h
  · next hk => cases h; exact ⟨hk, rfl⟩
  · cases h

theorem exec_call_completed {nnn : Imm12} (h : exec (.call nnn) s = .next t) (hr : raises (.call nnn) s = none) :
    ∃ hk : s.sp.toNat < 16, t = (s.push hk s.pc).jump (addressOf nnn) := by
  have h16 : s.sp ≠ 16#5 := by simpa [raises] using hr
  simp only [exec, execCall, if_neg h16] at h
  split at h
  · next hk => cases h; exact ⟨hk, rfl⟩
  · cases h

theorem exec_drw_completed {x y n : Nibble} (h : exec (.drw x y n) s = .next t)
    (hr : raises (.drw x y n) s = none) :
    t = ((s.showFb ((s.spriteOf x y n).foldl flipPixel s.fb)).writeFlag
      (collisionFlag s.fb (s.spriteOf x y n))).advance := by
  rw [exec, execDrw_ok hr] at h; cases h; rfl

theorem exec_ldB_completed {x : Nibble} (h : exec (.ldB x) s = .next t) (hr : raises (.ldB x) s = none) :
    s.i.toNat + 3 ≤ memSize ∧ t = (s.writeMem (s.mem.writeBytes s.i.toNat (decimalDigits (s.readV x)))).advance := by
  have hb : s.i.toNat + 2 ≤ 0xFFF := by simpa [raises] using hr
  rw [exec, execLdB_ok hr] at h; cases h
  exact ⟨by unfold memSize; omega, rfl⟩

theorem exec_stRegs_completed {x : Nibble} (h : exec (.stRegs x) s = .next t) (hr : raises (.stRegs x) s = none) :
    s.i.toNat + (x.toNat + 1) ≤ memSize ∧ t = (s.writeMem (s.mem.writeBytes s.i.toNat (s.regRange x))).advance := by
  have hb : s.i.toNat + x.toNat ≤ 0xFFF := by simpa [raises] using hr
  rw [exec, execStRegs_ok hr] at h; cases h
  exact ⟨by unfold memSize; omega, rfl⟩

theorem exec_ldRegs_completed {x : Nibble} (h : exec (.ldRegs x) s = .next t) (hr : raises (.ldRegs x) s = none) :
    t = (s.writeRegs 0 (s.mem.readBytes s.i.toNat (x.toNat + 1))).advance := by
  rw [exec, execLdRegs_ok hr] at h; cases h; rfl

/-- With a stack pointer of the machine (R30) every instruction answers a next state, faults included. -/
theorem exec_answers (i : Instr) (hsp : s.sp.toNat ≤ 16) : ∃ t, exec i s = .next t := by
  cases hr : raises i s with
  | some c => exact ⟨_, exec_raises hr⟩
  | none =>
    cases i
    case ret =>
      have h0 : s.sp ≠ 0#5 := by simpa [raises] using hr
      have hpos : 0 < s.sp.toNat := Nat.pos_of_ne_zero fun e => h0 (BitVec.eq_of_toNat_eq e)
      exact ⟨_, execRet_ok hpos (by omega)⟩
    case call nnn =>
      have h16 : s.sp ≠ 16#5 := by simpa [raises] using hr
      have hne : s.sp.toNat ≠ 16 := fun e => h16 (BitVec.eq_of_toNat_eq e)
      exact ⟨_, execCall_ok nnn (by omega)⟩
    case drw => exact ⟨_, execDrw_ok hr⟩
    case ldB => exact ⟨_, execLdB_ok hr⟩
    case stRegs => exact ⟨_, execStRegs_ok hr⟩
    case ldRegs => exact ⟨_, execLdRegs_ok hr⟩
    all_goals exact ⟨_, rfl⟩

/-! ### The frame (R13, R23) -/

/-- The shape of the register loads: one register, then `PC`. -/
theorem same_writeV_advance {l : Loc} {x : Nibble} (s : State) (b : Byte) (h : ¬ (l = .v x ∨ l = .pc)) :
    l.same s (s.writeV x b).advance := by
  obtain ⟨hv, hpc⟩ := not_or.mp h
  exact (same_writeV s b hv).trans (same_advance _ hpc)

/-- The shape of the index loads: `I`, then `PC`. -/
theorem same_writeI_advance {l : Loc} (s : State) (a : Word) (h : ¬ (l = .i ∨ l = .pc)) :
    l.same s (s.writeI a).advance := by
  obtain ⟨hi, hpc⟩ := not_or.mp h
  exact (same_writeI s a hi).trans (same_advance _ hpc)

/-- The shape of the arithmetic that sets VF: two registers, one of them VF, then `PC`. -/
theorem same_writeV_writeV_advance {l : Loc} {x y : Nibble} (s : State) (a b : Byte)
    (h : ¬ (l = .v x ∨ l = .v y ∨ l = .pc)) : l.same s ((s.writeV x a).writeV y b).advance := by
  simp only [not_or] at h
  obtain ⟨hx, hy, hpc⟩ := h
  exact ((same_writeV s a hx).trans (same_writeV _ b hy)).trans (same_advance _ hpc)

/-- The shape of the key tests: the tested key, then `PC`. -/
theorem same_consumeKey_skipIf {l : Loc} {k : Nibble} (s : State) (c : Prop) [Decidable c]
    (h : ¬ (l = .pc ∨ l = .key k)) : l.same s ((s.consumeKey k).skipIf c) := by
  obtain ⟨hpc, hk⟩ := not_or.mp h
  exact (same_consumeKey s hk).trans (same_skipIf _ c hpc)

/-- The shape of the stores: the bytes from address `a` up, then `PC`. -/
theorem same_writeBytes_advance {l : Loc} (s : State) {a : Nat} {xs : List Byte} (hwf : ∀ b, l = .mem b → Memory.wf s.mem)
    (hx : a + xs.length ≤ memSize) (hpc : l ≠ .pc) (hmem : ∀ k, k < xs.length → l ≠ .mem (a + k)) :
    l.same s (s.writeMem (s.mem.writeBytes a xs)).advance := by
  refine (same_writeMem s _ fun b hb => ?_).trans (same_advance _ hpc)
  have hout : ¬ (a ≤ b ∧ b < a + xs.length) := fun hin =>
    hmem (b - a) (by omega) (by rw [hb]; congr 1; omega)
  rw [Memory.read_writeBytes (hwf b hb) hx, if_neg hout]

theorem same_drw {l : Loc} {x y n : Nibble} (s : State) (h : ¬ mayWrite (.drw x y n) s l) :
    l.same s ((s.showFb ((s.spriteOf x y n).foldl flipPixel s.fb)).writeFlag
      (collisionFlag s.fb (s.spriteOf x y n))).advance := by
  simp only [mayWrite, not_or] at h
  obtain ⟨hvf, hredraw, hpc, hpixel⟩ := h
  refine ((same_showFb s _ hredraw fun k hk => ?_).trans (same_writeFlag _ _ hvf)).trans (same_advance _ hpc)
  refine lit_foldl_flipPixel_of_notMem _ (spritePixels_lt _ _ _) _ fun hmem => ?_
  obtain ⟨r, c, hr, hc, -, rfl⟩ := (mem_spriteOf s x y n k).mp hmem
  exact hpixel ⟨r, c, hr, hc, hk⟩

/-- R13, place by place: what the table R23 does not list for an instruction is unchanged once it has completed. For a
byte of memory the memory must be canonical. -/
theorem exec_same {l : Loc} (h : exec i s = .next t) (hr : raises i s = none) (hwf : ∀ a, l = .mem a → Memory.wf s.mem)
    (hl : ¬ mayWrite i s l) : l.same s t := by
  cases i
  case cls =>
    cases h
    simp only [mayWrite, not_or] at hl
    obtain ⟨hredraw, hpc, hpixel⟩ := hl
    exact (same_showFb s _ hredraw fun k hk => absurd ⟨k, hk⟩ hpixel).trans (same_advance _ hpc)
  case ret =>
    obtain ⟨-, rfl⟩ := exec_ret_completed h hr
    obtain ⟨hsp, hpc⟩ := not_or.mp hl
    exact (same_pop s hsp).trans (same_jump _ _ hpc)
  case call nnn =>
    obtain ⟨hk, rfl⟩ := exec_call_completed h hr
    simp only [mayWrite, not_or] at hl
    obtain ⟨hsp, hpc, hslot⟩ := hl
    exact (same_push s hk _ hsp fun e => hslot ⟨_, rfl, e⟩).trans (same_jump _ _ hpc)
  case jp | jpV0 => cases h; exact same_jump s _ hl
  case seNn | sneNn | seVy | sneVy => cases h; exact same_skipIf s _ hl
  case skp | sknp => cases h; exact same_consumeKey_skipIf s _ hl
  case ldNn | addNn | ldVy | or | and | xor | ldVxDt => cases h; exact same_writeV_advance s _ hl
  case addVy | sub | subn => cases h; exact same_writeV_writeV_advance s _ _ hl
  case shr x _ | shl x _ =>
    cases h
    refine same_writeV_writeV_advance (x := vf) s _ _ fun hw => hl ?_
    simp only [mayWrite]
    tauto
  case rnd x nn =>
    cases h
    simp only [mayWrite, not_or] at hl
    obtain ⟨hv, hpc, hrnd, hdraws⟩ := hl
    exact (same_drawn s hrnd hdraws).trans (same_writeV_advance _ _ (not_or.mpr ⟨hv, hpc⟩))
  case drw => obtain rfl := exec_drw_completed h hr; exact same_drw s hl
  case ldI | ldF => cases h; exact same_writeI_advance s _ hl
  case addI x =>
    cases h
    simp only [mayWrite, not_or] at hl
    obtain ⟨hi, hv, hpc⟩ := hl
    exact (same_writeI s _ hi).trans (same_writeV_advance _ _ (not_or.mpr ⟨hv, hpc⟩))
  case ldVxK => cases h; exact same_writeRun s _ hl
  case ldDtVx =>
    cases h
    obtain ⟨hdt, hpc⟩ := not_or.mp hl
    exact (same_writeDt s _ hdt).trans (same_advance _ hpc)
  case ldStVx =>
    cases h
    obtain ⟨hst, hpc⟩ := not_or.mp hl
    exact (same_writeSt s _ hst).trans (same_advance _ hpc)
  case ldB x =>
    obtain ⟨hb, rfl⟩ := exec_ldB_completed h hr
    obtain ⟨hpc, hmem⟩ := not_or.mp hl
    exact same_writeBytes_advance s hwf hb hpc fun k hk e => hmem ⟨k, hk, e⟩
  case stRegs x =>
    obtain ⟨hb, rfl⟩ := exec_stRegs_completed h hr
    obtain ⟨hpc, hmem⟩ := not_or.mp hl
    refine same_writeBytes_advance s hwf (by simpa using hb) hpc fun k hk e => hmem ⟨k, ?_, e⟩
    simp only [length_regRange] at hk
    omega
  case ldRegs x =>
    obtain rfl := exec_ldRegs_completed h hr
    obtain ⟨hpc, hv⟩ := not_or.mp hl
    have hx := x.isLt
    refine (same_writeRegs s _ (by simp; omega) fun k hk e => hv ⟨k, ?_, e⟩).trans (same_advance _ hpc)
    simp only [Memory.length_readBytes] at hk
    omega

/-- Settles O43: an instruction that raises nothing answers a next state (`exec_answers`), which keeps the fault
registers and `RUN` (`exec_cases`) and the frame of R23 (`exec_same`). -/
theorem otherwiseEveryInstructionCompletes : Obligations.OtherwiseEveryInstructionCompletes := by
  intro i s hwf hsp hr
  obtain ⟨t, h⟩ := exec_answers i hsp
  refine ⟨t, h, ?_⟩
  have hframe : OnlyWrites i s t := fun l hl => exec_same h hr (fun _ _ => hwf) hl
  rcases exec_cases h with ⟨c, hc, -⟩ | ⟨-, -, -, -, hcause, -, -, hrun⟩
  · rw [hr] at hc; cases hc
  · rcases hrun with ⟨hkeep, hne⟩ | ⟨hwait, x, rfl⟩
    · exact ⟨hcause, fun x e => absurd e (hne x), fun _ => hkeep, hframe⟩
    · exact ⟨hcause, fun _ _ => hwait, fun hne => absurd rfl (hne x), hframe⟩

/-- Settles O20: a fault keeps every register, and a completed instruction changes VF only where R23 lists it. -/
theorem vfWrittenOnlyAsListed : Obligations.VfWrittenOnlyAsListed := by
  intro i s t h hne
  rcases exec_cases h with ⟨c, -, rfl⟩ | ⟨hr, -⟩
  · exact absurd rfl hne
  · have hw : mayWrite i s (.v vf) := by
      by_contra hl
      exact hne (exec_same h hr (fun _ e => by cases e) hl)
    cases i
    case ldRegs x =>
      obtain ⟨k, hk, e⟩ : ∃ k : Nibble, k.toNat ≤ x.toNat ∧ Loc.v vf = .v k := by simpa [mayWrite] using hw
      cases e
      have hx : x = vf := BitVec.eq_of_toNat_eq (Nat.le_antisymm (Nat.le_of_lt_succ x.isLt) hk)
      simp [hx]
    all_goals simp_all [mayWrite]

end Sys2Proof.Machine

/-! ## Where an instruction leaves `PC` (R26) -/

namespace Sys2Proof.Machine

variable {i : Instr} {s t : State}

/-- A fault leaves `PC` at the instruction (R217). -/
theorem exec_raises_pc {c : TrapCause} (h : exec i s = .next t) (hr : raises i s = some c) : t.pc = s.pc := by
  rw [exec_raises hr] at h
  cases h
  rfl

theorem skipIf_pc_or (s : State) (c : Prop) [Decidable c] :
    (s.skipIf c).pc = s.pc + 4#16 ∨ (s.skipIf c).pc = s.pc + 2#16 := by
  rw [skipIf_pc]
  split
  · exact .inl rfl
  · exact .inr rfl

/-- Settles O44: an instruction that raises leaves `PC`; one that does not answers one known state. -/
theorem pcAfterEachInstruction : Obligations.PcAfterEachInstruction := by
  intro i s t h _
  cases hr : raises i s with
  | some c =>
    have hpc := exec_raises_pc h hr
    cases i
    case ret | call | drw | ldB | stRegs | ldRegs => simp [hpc]
    all_goals cases hr
  | none =>
    cases i
    case ret =>
      obtain ⟨hk, rfl⟩ := exec_ret_completed h hr
      simp [State.readSlot, Nat.mod_eq_of_lt hk]
    case call nnn =>
      obtain ⟨-, rfl⟩ := exec_call_completed h hr
      simp [toNat_addressOf]
    case drw => obtain rfl := exec_drw_completed h hr; simp
    case ldB => obtain ⟨-, rfl⟩ := exec_ldB_completed h hr; simp
    case stRegs => obtain ⟨-, rfl⟩ := exec_stRegs_completed h hr; simp
    case ldRegs => obtain rfl := exec_ldRegs_completed h hr; simp
    case jp nnn => cases h; exact toNat_addressOf nnn
    case jpV0 nnn => cases h; exact toNat_offsetTarget _ nnn
    case seNn | sneNn | seVy | sneVy => cases h; exact skipIf_pc_or s _
    case skp | sknp => cases h; simpa using skipIf_pc_or (s.consumeKey _) _
    all_goals cases h; rfl

end Sys2Proof.Machine

/-! ## The steps of the machine, from their parts -/

namespace Sys2Proof.Machine

variable {i : Instr} {s t : State}

/-- A running core executes the instruction it fetches, and ends the step (R210). -/
theorem instructionStep_exec {w : Word} (hrun : s.run = .running) (hf : s.fetch = some w) (hd : decodeWord w = .ok i)
    (h : exec i (s.writeIr w) = .next t) : instructionStep s = .next t.finish := by
  simp [instructionStep, hrun, hf, runWord, hd, executeAndRender, h]

/-- With a stack pointer of the machine (R30) the core's own step always answers a next state. -/
theorem instructionStep_answers (hsp : s.sp.toNat ≤ 16) : ∃ t, instructionStep s = .next t := by
  by_cases hrun : s.run = .running
  · cases hf : s.fetch with
    | none => exact ⟨s.takeTrap .memoryOutOfBounds 0x0000#16, by simp [instructionStep, hrun, hf]⟩
    | some w =>
      cases hd : decodeWord w with
      | error e =>
        exact ⟨(s.writeIr w).takeTrap .illegalOpcode w, by simp [instructionStep, hrun, hf, runWord, hd]⟩
      | ok i =>
        obtain ⟨t, h⟩ := exec_answers (s := s.writeIr w) i hsp
        exact ⟨_, instructionStep_exec hrun hf hd h⟩
  · exact ⟨s, by simp [instructionStep, hrun]⟩

theorem core_run_two {u : State} (hst : step s = .next t) (htu : step t = .next u) :
    Sys2Proof.core.run 2 s = .next u := by
  have hst' : Sys2Proof.core.step s = .next t := hst
  have htu' : Sys2Proof.core.step t = .next u := htu
  simp [Host.Core.run, hst', htu']

/-- Settles O59: SP is at most 16 in the invariant, so the core's step answers; the other agents' steps always do, but
for a reset with too long an image. -/
theorem stepNeverStops : Obligations.StepNeverStops := by
  intro s hinv hrom
  cases hs : s.schedule with
  | nil =>
    rw [step_nil hs]
    exact instructionStep_answers hinv.stackPointer
  | cons e rest =>
    rw [step_cons hs]
    cases e with
    | instruction => exact instructionStep_answers hinv.stackPointer
    | reset rom =>
      have hwf : romWellFormed rom = true := decide_eq_true (hrom rom rest hs)
      exact ⟨_, by rw [machineStep, State.resetWith, if_pos hwf]⟩
    | _ => exact ⟨_, rfl⟩

end Sys2Proof.Machine

/-! ## Timer ticks and the other instructions (R32, R226)

Only FX07, FX15 and FX18 look at the timers, and none looks at the schedule: the other instructions do the same with
any timers and any schedule, and leave them as they find them. -/

namespace Sys2Proof.Machine

variable {i : Instr} {s t : State}

/-- The state with other timers and another schedule. -/
def State.retimed (s : State) (dt st : Byte) (schedule : List MachineStep) : State :=
  { s with dt := dt, st := st, schedule := schedule }

variable (dt st : Byte) (q : List MachineStep)

theorem raises_retimed (i : Instr) (s : State) : raises i (s.retimed dt st q) = raises i s := by
  cases i <;> rfl

theorem skipIf_retimed (s : State) (c : Prop) [Decidable c] :
    (s.retimed dt st q).skipIf c = (s.skipIf c).retimed dt st q := by
  unfold State.skipIf
  split <;> rfl

theorem consumeKey_retimed (s : State) (k : Nibble) :
    (s.retimed dt st q).consumeKey k = (s.consumeKey k).retimed dt st q := by
  rw [State.consumeKey, State.consumeKey, apply_ite (State.retimed · dt st q)]
  rfl

theorem writeRegs_retimed (s : State) (k : Nat) (xs : List Byte) :
    (s.retimed dt st q).writeRegs k xs = (s.writeRegs k xs).retimed dt st q := by
  induction xs generalizing s k with
  | nil => rfl
  | cons b rest ih => exact ih (s.writeV (BitVec.ofNat 4 k) b) (k + 1)

theorem render_retimed (s : State) : (s.retimed dt st q).render = s.render.retimed dt st q := by
  rw [State.render, State.render, apply_ite (State.retimed · dt st q)]
  rfl

theorem finish_retimed (s : State) : (s.retimed dt st q).finish = s.finish.retimed dt st q := by
  rw [State.finish, State.finish, render_retimed, apply_ite (State.retimed · dt st q)]
  rfl

/-- An instruction that names no timer does the same with other timers and another schedule. -/
theorem exec_retimed (hi : ∀ x, i ≠ .ldVxDt x ∧ i ≠ .ldDtVx x ∧ i ≠ .ldStVx x) (h : exec i s = .next t)
    (hr : raises i s = none) : exec i (s.retimed dt st q) = .next (t.retimed dt st q) := by
  have hr' : raises i (s.retimed dt st q) = none := by rw [raises_retimed, hr]
  cases i
  case ldVxDt x => exact absurd rfl (hi x).1
  case ldDtVx x => exact absurd rfl (hi x).2.1
  case ldStVx x => exact absurd rfl (hi x).2.2
  case ret =>
    have h0 : s.sp ≠ 0#5 := by simpa [raises] using hr
    obtain ⟨hk, rfl⟩ := exec_ret_completed h hr
    have hpos : 0 < s.sp.toNat := Nat.pos_of_ne_zero fun e => h0 (BitVec.eq_of_toNat_eq e)
    exact execRet_ok (s := s.retimed dt st q) hpos hk
  case call nnn =>
    obtain ⟨hk, rfl⟩ := exec_call_completed h hr
    exact execCall_ok (s := s.retimed dt st q) nnn hk
  case drw => obtain rfl := exec_drw_completed h hr; exact execDrw_ok hr'
  case ldB => obtain ⟨-, rfl⟩ := exec_ldB_completed h hr; exact execLdB_ok hr'
  case stRegs => obtain ⟨-, rfl⟩ := exec_stRegs_completed h hr; exact execStRegs_ok hr'
  case ldRegs =>
    obtain rfl := exec_ldRegs_completed h hr
    refine (execLdRegs_ok hr').trans ?_
    rw [writeRegs_retimed]
    rfl
  case seNn | sneNn | seVy | sneVy => cases h; exact congrArg _ (skipIf_retimed dt st q s _)
  case skp | sknp =>
    cases h
    rw [← skipIf_retimed, ← consumeKey_retimed]
    rfl
  all_goals cases h; rfl

/-- An instruction without a fault does not halt the core. -/
theorem exec_run_ne_halted (h : exec i s = .next t) (hr : raises i s = none) (hrun : s.run ≠ .halted) :
    t.run ≠ .halted := by
  rcases exec_cases h with ⟨c, hc, -⟩ | ⟨-, -, -, -, -, -, -, ⟨hkeep, -⟩ | ⟨hwait, -⟩⟩
  · rw [hr] at hc; cases hc
  · rwa [hkeep]
  · simp [hwait]

/-- A scheduled tick decrements both timers while the core is not halted (R225). -/
theorem step_timerTick_retimed (hrun : s.run ≠ .halted) :
    step (s.retimed dt st (.timerTick :: q)) = .next (s.retimed (decrement dt) (decrement st) q) := by
  have htick : (s.retimed dt st q).timerTick = (s.retimed dt st q).decTimers := if_neg hrun
  rw [step_cons rfl]
  exact congrArg Host.Outcome.next htick

/-- Settles O40: with `u` what the instruction makes of the state, both orders lead to `u`, its step ended, with both
timers decremented and the rest of the schedule. -/
theorem ticksCommuteWithOtherInstructions : Obligations.TicksCommuteWithOtherInstructions := by
  intro i w rest s hrun hf hd hsp hr hi
  obtain ⟨u, hu⟩ := exec_answers (s := s.writeIr w) i hsp
  have hru : raises i (s.writeIr w) = none := (raises_fetched i s w).trans hr
  have hnh : s.run ≠ .halted := by simp [hrun]
  have hstep (dt st : Byte) (q : List MachineStep) :
      step (s.retimed dt st (.instruction :: q)) = .next (u.finish.retimed dt st q) := by
    rw [step_cons rfl, ← finish_retimed]
    exact instructionStep_exec hrun hf hd (exec_retimed dt st q hi hu hru)
  refine ⟨u.finish.retimed (decrement s.dt) (decrement s.st) rest, ?_, ?_⟩
  · exact core_run_two (step_timerTick_retimed s.dt s.st _ hnh) (hstep _ _ rest)
  · have hfin : u.finish.run ≠ .halted := by
      rw [finish_run]
      exact exec_run_ne_halted hu hru hnh
    exact core_run_two (hstep s.dt s.st _) (step_timerTick_retimed _ _ rest hfin)

end Sys2Proof.Machine

/-! ## The machine after reset (R45) -/

namespace Sys2Proof.Machine

theorem length_font : font.length = 80 := rfl

theorem unlisted_font {a : Nat} (h : a < font.length) : Memory.unlisted a = font[a] :=
  List.getD_eq_getElem _ _ h

theorem unlisted_above_font {a : Nat} (h : 80 ≤ a) : Memory.unlisted a = 0x00#8 :=
  List.getD_eq_default _ _ (by rw [length_font]; exact h)

/-- The bytes of the program image stand at 0x200 up. -/
theorem read_ofRom_image {rom : List Byte} {j : Nat} (h : j < rom.length) :
    (Memory.ofRom rom).read (0x200 + j) = rom[j] := by
  rw [Memory.ofRom, Memory.read_image, romBase, if_pos (by omega), Nat.add_sub_cancel_left]
  exact List.getD_eq_getElem _ _ h

/-- Outside the program image memory is the reset image. -/
theorem read_ofRom_outside {rom : List Byte} {a : Nat} (h : a < 0x200 ∨ 0x200 + rom.length ≤ a) :
    (Memory.ofRom rom).read a = Memory.unlisted a := by
  rw [Memory.ofRom, Memory.read_image, romBase, if_neg (by omega)]

/-- Settles O55: registers by register, memory by the four ranges of R45. -/
theorem resetStateValues : Obligations.ResetStateValues := by
  intro rom _
  have hV (x : Nibble) : (State.ofRom rom).readV x = 0x00#8 := Vector.getElem_replicate x.isLt
  have hstack (k : Nat) (h : k < 16) : (State.ofRom rom).stack[k] = 0x0000#16 := Vector.getElem_replicate h
  have hfont (a : Nat) (h : a < 80) : (State.ofRom rom).mem.read a = font[a]'h :=
    (read_ofRom_outside (.inl (by omega))).trans (unlisted_font h)
  have hlow (a : Nat) (h : 0x50 ≤ a) (ha : a < 0x200) : (State.ofRom rom).mem.read a = 0x00#8 :=
    (read_ofRom_outside (.inl ha)).trans (unlisted_above_font h)
  have himage (j : Nat) (h : j < rom.length) : (State.ofRom rom).mem.read (0x200 + j) = rom[j] := read_ofRom_image h
  have hhigh (a : Nat) (h : 0x200 + rom.length ≤ a) : (State.ofRom rom).mem.read a = 0x00#8 :=
    (read_ofRom_outside (.inr h)).trans (unlisted_above_font (by omega))
  have hfb (k : Nat) : lit (State.ofRom rom).fb k = false := BitVec.getLsbD_zero
  have hkeys (k : Nibble) : keyDown (State.ofRom rom).keys k = false := BitVec.getLsbD_zero
  exact ⟨hV, rfl, rfl, hstack, rfl, rfl, rfl, rfl, rfl, rfl, rfl, rfl, rfl, hfont, hlow, himage, hhigh, hfb, hkeys⟩

/-- An admissible image ends inside `MEM`, so the memory it leaves is canonical (R77). -/
theorem wf_ofRom {rom : List Byte} (h : romWellFormed rom = true) : Memory.wf (Memory.ofRom rom) := by
  have hlen : rom.length ≤ 3584 := of_decide_eq_true h
  exact Memory.wf_image (by unfold romBase memSize; omega)

end Sys2Proof.Machine

/-! ## The invariant -/

namespace Sys2Proof.Machine

variable {i : Instr} {s t : State}

/-! ### What the invariant asks of a state without a fault, and of trap entry -/

/-- Without a latched fault the rules about causes have nothing to say. -/
theorem State.Inv.of_no_fault (hmem : Memory.wf s.mem) (hsp : s.sp.toNat ≤ 16) (hpc : s.pc.toNat ≤ 0x1002)
    (hslots : ∀ k (h : k < 16), s.stack[k].toNat ≤ 0xFFE) (hredraw : s.redraw = false)
    (hfault : s.faultCause = 0#3 ∧ s.faultInstr = 0x0000#16 ∧ s.faultPc = 0x0000#16)
    (hwait : s.run = .awaitKey → s.pc.toNat ≤ 0xFFE ∧ decodeWord s.ir = .ok (.ldVxK (xField s.ir))) : s.Inv where
  memory := hmem
  stackPointer := hsp
  programCounter := hpc
  slots := hslots
  redrawClear := hredraw
  faultFree _ := hfault
  causeKnown := by simp [hfault.1]
  faultAtPc h := absurd hfault.1 h
  fetchFault h := absurd hfault.1 h
  illegalCause h := by simp [hfault.1] at h
  overflowCause h := by simp [hfault.1] at h
  underflowCause h := by simp [hfault.1] at h
  waiting := hwait

theorem TrapCause.code_injective {c d : TrapCause} (h : c.code = d.code) : c = d := by
  revert h
  cases c <;> cases d <;> decide

theorem TrapCause.code_le (c : TrapCause) : c.code.toNat ≤ 4 := by
  cases c <;> decide

/-- What makes a fault's cause and instruction value fit the state it is raised in (R215). -/
structure TrapFits (s : State) (c : TrapCause) (w : Word) : Prop where
  fetch : 0xFFE < s.pc.toNat → c = .memoryOutOfBounds ∧ w = 0x0000#16
  illegal : c = .illegalOpcode → ∀ i, decodeWord w ≠ .ok i
  overflow : c = .stackOverflow → s.sp = 16#5 ∧ opField w = 0x2#4
  underflow : c = .stackUnderflow → s.sp = 0#5 ∧ w = 0x00EE#16

/-- Trap entry with a fitting cause keeps the invariant. -/
theorem State.Inv.takeTrap {c : TrapCause} {w : Word} (h : s.Inv) (hfit : TrapFits s c w) : (s.takeTrap c w).Inv where
  memory := h.memory
  stackPointer := h.stackPointer
  programCounter := h.programCounter
  slots := h.slots
  redrawClear := h.redrawClear
  faultFree hrun := absurd rfl hrun
  causeKnown := c.code_le
  faultAtPc _ := rfl
  fetchFault _ hpc := by
    obtain ⟨rfl, rfl⟩ := hfit.fetch hpc
    exact ⟨rfl, rfl⟩
  illegalCause hc := hfit.illegal (TrapCause.code_injective hc)
  overflowCause hc := hfit.overflow (TrapCause.code_injective hc)
  underflowCause hc := hfit.underflow (TrapCause.code_injective hc)
  waiting hrun := nomatch hrun

/-! ### What the invariant says about memory, the stack and `PC` is kept by an instruction -/

theorem exec_mem_wf (h : exec i s = .next t) (hr : raises i s = none) (hwf : Memory.wf s.mem) : Memory.wf t.mem := by
  cases i
  case ret => obtain ⟨-, rfl⟩ := exec_ret_completed h hr; exact hwf
  case call => obtain ⟨-, rfl⟩ := exec_call_completed h hr; exact hwf
  case drw => obtain rfl := exec_drw_completed h hr; exact hwf
  case ldB => obtain ⟨hb, rfl⟩ := exec_ldB_completed h hr; exact Memory.wf_writeBytes hwf hb
  case stRegs => obtain ⟨hb, rfl⟩ := exec_stRegs_completed h hr; exact Memory.wf_writeBytes hwf (by simpa using hb)
  case ldRegs => obtain rfl := exec_ldRegs_completed h hr; simpa using hwf
  case seNn | sneNn | seVy | sneVy | skp | sknp => cases h; simpa using hwf
  all_goals cases h; exact hwf

theorem exec_sp_le (h : exec i s = .next t) (hr : raises i s = none) (hsp : s.sp.toNat ≤ 16) : t.sp.toNat ≤ 16 := by
  by_cases hl : mayWrite i s .sp
  · cases i
    case ret =>
      have h0 : s.sp ≠ 0#5 := by simpa [raises] using hr
      obtain ⟨-, rfl⟩ := exec_ret_completed h hr
      simp only [jump_sp, pop_sp]
      bv_omega
    case call nnn =>
      obtain ⟨hk, rfl⟩ := exec_call_completed h hr
      simp only [jump_sp, push_sp]
      bv_omega
    all_goals simp [mayWrite] at hl
  · have hsame : t.sp = s.sp := exec_same h hr (fun _ e => by cases e) hl
    rwa [hsame]

theorem exec_slots_le (h : exec i s = .next t) (hr : raises i s = none) (hpc : s.pc.toNat ≤ 0xFFE)
    (hslots : ∀ k (hk : k < 16), s.stack[k].toNat ≤ 0xFFE) : ∀ k (hk : k < 16), t.stack[k].toNat ≤ 0xFFE := by
  intro k hk
  by_cases hl : mayWrite i s (.slot ⟨k, hk⟩)
  · cases i
    case call nnn =>
      obtain ⟨hsp, rfl⟩ := exec_call_completed h hr
      simp only [jump_stack, push_stack, Vector.getElem_set]
      split
      · exact hpc
      · exact hslots k hk
    all_goals simp [mayWrite] at hl
  · have hsame : t.stack[k] = s.stack[k] := exec_same (l := .slot ⟨k, hk⟩) h hr (fun _ e => by cases e) hl
    rw [hsame]
    exact hslots k hk

/-- R28: from a `PC` that was fetched at, an instruction goes at most to 0x1002. -/
theorem exec_pc_le (h : exec i s = .next t) (hsp : s.sp.toNat ≤ 16) (hpc : s.pc.toNat ≤ 0xFFE)
    (hslots : ∀ k (hk : k < 16), s.stack[k].toNat ≤ 0xFFE) : t.pc.toNat ≤ 0x1002 := by
  have hafter := pcAfterEachInstruction i s t h hsp
  cases i
  case jp nnn => have := nnn.isLt; simp only at hafter; omega
  case jpV0 nnn => simp only at hafter; omega
  case call nnn => have := nnn.isLt; simp only at hafter; split at hafter <;> omega
  case ret =>
    have hslot := hslots ((s.sp.toNat - 1) % 16) (Nat.mod_lt _ (by decide))
    simp only at hafter
    split at hafter <;> rw [hafter] <;> bv_omega
  case ldVxK => rw [show t.pc = s.pc from hafter]; omega
  case seNn | sneNn | seVy | sneVy | skp | sknp =>
    simp only at hafter
    rcases hafter with e | e <;> rw [e] <;> bv_omega
  all_goals
    simp only at hafter
    split at hafter <;> rw [hafter] <;> bv_omega

end Sys2Proof.Machine

/-! ## The decoder inverts to the encoder -/

namespace Sys2Proof

variable {w : Word} {i : Instr} {op n nn : Nat}

/-! ### A word from its fields, the selecting ones given as the numbers the decoder matches on -/

theorem packA_of_toNat (hop : (opField w).toNat = op) : packA (BitVec.ofNat 4 op) (nnnField w) = w := by
  rw [← hop, BitVec.ofNat_toNat, BitVec.setWidth_eq]
  exact packA_fields w

theorem packI_of_toNat (hop : (opField w).toNat = op) : packI (BitVec.ofNat 4 op) (xField w) (nnField w) = w := by
  rw [← hop, BitVec.ofNat_toNat, BitVec.setWidth_eq]
  exact packI_fields w

theorem packR_of_toNat (hop : (opField w).toNat = op) :
    packR (BitVec.ofNat 4 op) (xField w) (yField w) (nField w) = w := by
  rw [← hop, BitVec.ofNat_toNat, BitVec.setWidth_eq]
  exact packR_fields w

theorem packI_of_toNat_nn (hop : (opField w).toNat = op) (hnn : (nnField w).toNat = nn) :
    packI (BitVec.ofNat 4 op) (xField w) (BitVec.ofNat 8 nn) = w := by
  rw [← hnn, BitVec.ofNat_toNat, BitVec.setWidth_eq]
  exact packI_of_toNat hop

theorem packR_of_toNat_n (hop : (opField w).toNat = op) (hn : (nField w).toNat = n) :
    packR (BitVec.ofNat 4 op) (xField w) (yField w) (BitVec.ofNat 4 n) = w := by
  rw [← hn, BitVec.ofNat_toNat, BitVec.setWidth_eq]
  exact packR_of_toNat hop

/-! ### Family by family (R97) -/

theorem encode_of_decodeFamily0 (h : decodeFamily0 w = .ok i) : encode i = w := by
  unfold decodeFamily0 at h
  split at h
  · next hw => cases h; exact hw.symm
  · split at h
    · next hw => cases h; exact hw.symm
    · cases h

theorem encode_of_decodeFamily5 (hop : (opField w).toNat = 0x5) (h : decodeFamily5 w = .ok i) : encode i = w := by
  unfold decodeFamily5 at h
  split at h
  · next hn => cases h; exact packR_of_toNat_n hop (congrArg BitVec.toNat hn)
  · cases h

theorem encode_of_decodeFamily8 (hop : (opField w).toNat = 0x8) (h : decodeFamily8 w = .ok i) : encode i = w := by
  unfold decodeFamily8 at h
  split at h
  case h_10 => cases h
  all_goals cases h; exact packR_of_toNat_n hop ‹_›

theorem encode_of_decodeFamily9 (hop : (opField w).toNat = 0x9) (h : decodeFamily9 w = .ok i) : encode i = w := by
  unfold decodeFamily9 at h
  split at h
  · next hn => cases h; exact packR_of_toNat_n hop (congrArg BitVec.toNat hn)
  · cases h

theorem encode_of_decodeFamilyE (hop : (opField w).toNat = 0xE) (h : decodeFamilyE w = .ok i) : encode i = w := by
  unfold decodeFamilyE at h
  split at h
  · next hnn => cases h; exact packI_of_toNat_nn hop (congrArg BitVec.toNat hnn)
  · split at h
    · next hnn => cases h; exact packI_of_toNat_nn hop (congrArg BitVec.toNat hnn)
    · cases h

theorem encode_of_decodeFamilyF (hop : (opField w).toNat = 0xF) (h : decodeFamilyF w = .ok i) : encode i = w := by
  unfold decodeFamilyF at h
  split at h
  case h_10 => cases h
  all_goals cases h; exact packI_of_toNat_nn hop ‹_›

/-- A word that decodes is the encoding of what it decodes to. -/
theorem encode_of_decodeWord (h : decodeWord w = .ok i) : encode i = w := by
  unfold decodeWord at h
  split at h
  case h_1 => exact encode_of_decodeFamily0 h
  case h_2 | h_3 | h_11 | h_12 => cases h; exact packA_of_toNat ‹_›
  case h_4 | h_5 | h_7 | h_8 | h_13 => cases h; exact packI_of_toNat ‹_›
  case h_6 => exact encode_of_decodeFamily5 ‹_› h
  case h_9 => exact encode_of_decodeFamily8 ‹_› h
  case h_10 => exact encode_of_decodeFamily9 ‹_› h
  case h_14 => cases h; exact packR_of_toNat ‹_›
  case h_15 => exact encode_of_decodeFamilyE ‹_› h
  case h_16 => exact encode_of_decodeFamilyF ‹_› h
  case h_17 => cases h

end Sys2Proof

/-! ## Every step keeps the invariant -/

namespace Sys2Proof.Machine

variable {i : Instr} {s t : State} {w : Word}

/-! ### The core's own step -/

/-- Each fault of R216 with its condition. -/
theorem raises_cases {c : TrapCause} (h : raises i s = some c) :
    (i = .ret ∧ s.sp = 0#5 ∧ c = .stackUnderflow) ∨ (∃ nnn, i = .call nnn ∧ s.sp = 16#5 ∧ c = .stackOverflow) ∨
    c = .memoryOutOfBounds := by
  cases i
  case ret =>
    simp only [raises] at h
    split at h <;> cases h
    next hsp => exact .inl ⟨rfl, hsp, rfl⟩
  case call nnn =>
    simp only [raises] at h
    split at h <;> cases h
    next hsp => exact .inr (.inl ⟨nnn, rfl, hsp, rfl⟩)
  case drw | ldB | stRegs | ldRegs =>
    simp only [raises] at h
    split at h <;> cases h
    exact .inr (.inr rfl)
  all_goals cases h

/-- The fault of a fetched instruction fits the state and the instruction's word (R215). -/
theorem trapFits_of_raises {c : TrapCause} (hpc : s.pc.toNat ≤ 0xFFE) (hd : decodeWord w = .ok i)
    (hr : raises i s = some c) : TrapFits s c w where
  fetch h := absurd h (by omega)
  illegal := by
    rintro rfl
    rcases raises_cases hr with ⟨-, -, e⟩ | ⟨-, -, -, e⟩ | e <;> cases e
  overflow := by
    rintro rfl
    rcases raises_cases hr with ⟨-, -, ⟨⟩⟩ | ⟨nnn, rfl, hsp, -⟩ | e
    · rw [← encode_of_decodeWord hd]
      exact ⟨hsp, opField_packA _ nnn⟩
    · cases e
  underflow := by
    rintro rfl
    rcases raises_cases hr with ⟨rfl, hsp, -⟩ | ⟨-, -, -, ⟨⟩⟩ | e
    · exact ⟨hsp, (encode_of_decodeWord hd).symm⟩
    · cases e

theorem finish_redraw (h : s.run ≠ .halted) : s.finish.redraw = false := by
  unfold State.finish State.render
  rw [if_neg h]
  split
  · rfl
  · next hredraw => simpa using hredraw

/-- `IR` matters to the invariant only while the core waits. -/
theorem State.Inv.writeIr (h : s.Inv) (hrun : s.run = .running) (w : Word) : (s.writeIr w).Inv :=
  { h with waiting := fun hwait => by rw [writeIr_run, hrun] at hwait; cases hwait }

/-- An instruction that completes, and the end of its step, keep the invariant. -/
theorem State.Inv.exec_completed (h : s.Inv) (hrun : s.run = .running) (hpc : s.pc.toNat ≤ 0xFFE)
    (hd : decodeWord s.ir = .ok i) (hr : raises i s = none) (he : exec i s = .next t) : t.finish.Inv := by
  have hnh : s.run ≠ .halted := by simp [hrun]
  rcases exec_cases he with ⟨c, hc, -⟩ | ⟨-, -, hir, -, hcause, hinstr, hfpc, ht⟩
  · rw [hr] at hc; cases hc
  refine .of_no_fault ?_ ?_ ?_ ?_ (finish_redraw (exec_run_ne_halted he hr hnh)) ?_ ?_
  · rw [finish_mem]; exact exec_mem_wf he hr h.memory
  · rw [finish_sp]; exact exec_sp_le he hr h.stackPointer
  · rw [finish_pc]; exact exec_pc_le he h.stackPointer hpc h.slots
  · simpa only [finish_stack] using exec_slots_le he hr hpc h.slots
  · rw [finish_faultCause, finish_faultInstr, finish_faultPc, hcause, hinstr, hfpc]
    exact h.faultFree hnh
  · intro hwait
    rw [finish_run] at hwait
    rcases ht with ⟨hkeep, -⟩ | ⟨-, x, rfl⟩
    · rw [hkeep, hrun] at hwait; cases hwait
    · cases he
      have hx : xField s.ir = x := by rw [← encode_of_decodeWord hd]; exact xField_packI _ x _
      rw [finish_pc, finish_ir, writeRun_pc, writeRun_ir, hx]
      exact ⟨hpc, hd⟩

theorem State.Inv.instructionStep (h : s.Inv) (hstep : instructionStep s = .next t) : t.Inv := by
  rcases instructionStep_cases hstep with ⟨-, rfl⟩ | ⟨-, hf, rfl⟩ | ⟨w, e, hrun, hf, hd, rfl⟩ |
    ⟨w, i, u, hrun, hf, hd, he, rfl⟩
  · exact h
  · exact h.takeTrap
      { fetch := fun _ => ⟨rfl, rfl⟩, illegal := nofun, overflow := nofun, underflow := nofun }
  · have hpc : s.pc.toNat ≤ 0xFFE := fetch_some hf
    exact (h.writeIr hrun w).takeTrap
      { fetch := fun hout => absurd hout (Nat.not_lt.mpr hpc), illegal := fun _ i hi => by rw [hd] at hi; cases hi
        overflow := nofun, underflow := nofun }
  · have hpc : s.pc.toNat ≤ 0xFFE := fetch_some hf
    cases hr : raises i (s.writeIr w) with
    | some c =>
      rw [exec_raises hr] at he
      cases he
      exact (h.writeIr hrun w).takeTrap (trapFits_of_raises hpc hd hr)
    | none => exact (h.writeIr hrun w).exec_completed hrun hpc hd hr he

/-! ### The steps of the other agents -/

theorem State.Inv.timerTick (h : s.Inv) : s.timerTick.Inv := by
  unfold State.timerTick
  split
  · exact h
  · exact { h with }

/-- A press either marks a key only, or completes the wait at a `PC` that was fetched at. -/
theorem State.Inv.press (h : s.Inv) (k : Nibble) : (s.press k).Inv := by
  unfold State.press
  split
  · next hrun =>
    obtain ⟨hpc, -⟩ := h.waiting hrun
    refine .of_no_fault h.memory h.stackPointer ?_ h.slots h.redrawClear (h.faultFree (by simp [hrun])) nofun
    change (s.pc + 2#16).toNat ≤ 0x1002
    bv_omega
  · exact { h with }

theorem State.Inv.release (h : s.Inv) (k : Nibble) : (s.release k).Inv := { h with }

theorem State.Inv.stop (h : s.Inv) : s.stop.Inv := by
  unfold State.stop
  split
  · exact h
  · exact { h with faultFree := fun hrun => absurd rfl hrun, waiting := nofun }

/-! ### Reset -/

theorem inv_ofRom {rom : List Byte} (h : romWellFormed rom = true) : (State.ofRom rom).Inv :=
  have hpc : (0x0200#16).toNat ≤ 0x1002 := by decide
  .of_no_fault (wf_ofRom h) (Nat.zero_le _) hpc (fun k hk => by simp [State.ofRom, State.reset]) rfl
    ⟨rfl, rfl, rfl⟩ nofun

/-- Settles O57: `State.reset` is the reset with the empty image. -/
theorem invAfterReset : Obligations.InvAfterReset :=
  ⟨inv_ofRom (rom := []) rfl, fun _ => inv_ofRom⟩

/-- Settles O58, agent by agent; the invariant does not speak of the schedule. -/
theorem stepKeepsInv : Obligations.StepKeepsInv := by
  intro s t h hstep
  have hsched (q : List MachineStep) : State.Inv { s with schedule := q } := { h with }
  rcases step_cases hstep with ⟨-, hcore⟩ | ⟨rest, -, rfl⟩ | ⟨k, rest, -, rfl⟩ | ⟨k, rest, -, rfl⟩ |
    ⟨rest, -, rfl⟩ | ⟨rom, rest, -, hrom, rfl⟩
  · exact (hsched _).instructionStep hcore
  · exact (hsched rest).timerTick
  · exact (hsched rest).press k
  · exact (hsched rest).release k
  · exact (hsched rest).stop
  · exact { inv_ofRom hrom with }

end Sys2Proof.Machine

/-! ## Memory under the program's feet (R62, R74) -/

namespace Sys2Proof.Machine

variable {i : Instr} {s t : State}

/-- A `PC` that fits in `MEM` fetches the two bytes there, the first more significant (R62, R91). -/
theorem fetch_of_le (h : s.pc.toNat ≤ 0xFFE) :
    s.fetch = some (s.mem.read s.pc.toNat ++ s.mem.read (s.pc.toNat + 1)) :=
  if_neg (Nat.not_lt.mpr h)

/-- After a store of `V0` to `VX` at `I`, the byte at `I + k` is `Vk` (R165). -/
theorem read_writeBytes_regRange {x k : Nibble} (hwf : Memory.wf s.mem) (hb : s.i.toNat + (x.toNat + 1) ≤ memSize)
    (hk : k.toNat ≤ x.toNat) :
    (s.mem.writeBytes s.i.toNat (s.regRange x)).read (s.i.toNat + k.toNat) = s.readV k := by
  rw [Memory.read_writeBytes hwf (by simpa using hb), length_regRange, if_pos (by omega), Nat.add_sub_cancel_left,
    getD_regRange s x k hk]

/-- An instruction that does not leave the core halted has not raised. -/
theorem raises_eq_none_of_run (h : exec i s = .next t) (hrun : t.run ≠ .halted) : raises i s = none := by
  cases hr : raises i s with
  | none => rfl
  | some c =>
    rw [exec_raises hr] at h
    cases h
    exact absurd rfl hrun

/-- Settles O26: the two bytes at the next `PC` read as the two registers stored there. -/
theorem storeThenFetchSeesNewBytes : Obligations.StoreThenFetchSeesNewBytes := by
  intro x k s t hwf h hrun hk hpc
  obtain ⟨hb, rfl⟩ := exec_stRegs_completed h (raises_eq_none_of_run h hrun)
  have hx := x.isLt
  have hsucc : (k + 1#4).toNat = k.toNat + 1 := by bv_omega
  have hfirst := read_writeBytes_regRange hwf hb (k := k) (by omega)
  have hsecond := read_writeBytes_regRange hwf hb (k := k + 1#4) (by omega)
  rw [hsucc, ← Nat.add_assoc] at hsecond
  unfold memSize at hb
  rw [fetch_of_le (by omega), hpc, advance_mem, writeMem_mem, hfirst, hsecond]

end Sys2Proof.Machine

/-! ## Which steps reach memory, the framebuffer and the keys (R39, R60) -/

namespace Sys2Proof.Machine

variable {i : Instr} {s t : State}

/-! ### The instructions -/

@[simp] theorem fetched_keys (s : State) (w : Word) : (s.fetched w).keys = s.keys := rfl

/-- An instruction other than the two stores keeps memory as data, and not only as it reads, so no canonical form is
asked for. -/
theorem exec_mem_eq (h : exec i s = .next t) (hi : ∀ x, i ≠ .ldB x ∧ i ≠ .stRegs x) : t.mem = s.mem := by
  cases hr : raises i s with
  | some c =>
    rw [exec_raises hr] at h
    cases h
    rfl
  | none =>
    cases i
    case ldB x => exact absurd rfl (hi x).1
    case stRegs x => exact absurd rfl (hi x).2
    case ret => obtain ⟨-, rfl⟩ := exec_ret_completed h hr; rfl
    case call => obtain ⟨-, rfl⟩ := exec_call_completed h hr; rfl
    case drw => obtain rfl := exec_drw_completed h hr; rfl
    case ldRegs => obtain rfl := exec_ldRegs_completed h hr; simp
    case seNn | sneNn | seVy | sneVy | skp | sknp => cases h; simp
    all_goals cases h; rfl

theorem exec_mem_changes (h : exec i s = .next t) (hne : t.mem ≠ s.mem) : ∃ x, i = .ldB x ∨ i = .stRegs x := by
  by_contra hno
  exact hne (exec_mem_eq h fun x => not_or.mp (not_exists.mp hno x))

/-- A place that trap entry keeps, other than a byte of memory, is changed only by an instruction that R23 lists for
it. -/
theorem mayWrite_of_not_same {l : Loc} (h : exec i s = .next t) (hne : ¬ l.same s t) (hmem : ∀ a, l ≠ .mem a)
    (htrap : ∀ c w, l.same s (s.takeTrap c w)) : mayWrite i s l := by
  cases hr : raises i s with
  | some c =>
    rw [exec_raises hr] at h
    cases h
    exact absurd (htrap c s.ir) hne
  | none =>
    by_contra hl
    exact hne (exec_same h hr (fun a e => absurd e (hmem a)) hl)

theorem exec_fb_changes (h : exec i s = .next t) (hne : t.fb ≠ s.fb) : i = .cls ∨ ∃ x y n, i = .drw x y n := by
  obtain ⟨k, hk⟩ : ∃ k, lit t.fb k ≠ lit s.fb k := by
    by_contra hall
    exact hne (BitVec.eq_of_getLsbD_eq fun k _ => not_not.mp (not_exists.mp hall k))
  have hw : mayWrite i s (.pixel k) := mayWrite_of_not_same h hk nofun fun _ _ => rfl
  cases i
  case cls => exact .inl rfl
  case drw x y n => exact .inr ⟨x, y, n, rfl⟩
  all_goals simp [mayWrite] at hw

theorem exec_key_changes {k : Nibble} (h : exec i s = .next t) (hne : keyDown t.keys k ≠ keyDown s.keys k) :
    ∃ x, lowNibble (s.readV x) = k ∧ (i = .skp x ∨ i = .sknp x) := by
  have hw : mayWrite i s (.key k) := mayWrite_of_not_same h hne nofun fun _ _ => rfl
  cases i
  case skp x =>
    have hk : k = lowNibble (s.readV x) := by simpa [mayWrite] using hw
    exact ⟨x, hk.symm, .inl rfl⟩
  case sknp x =>
    have hk : k = lowNibble (s.readV x) := by simpa [mayWrite] using hw
    exact ⟨x, hk.symm, .inr rfl⟩
  all_goals simp [mayWrite] at hw

/-- No instruction presses a key: the key tests only consume a press. -/
theorem exec_keyDown_of_keyDown {k : Nibble} (h : exec i s = .next t) (hk : keyDown t.keys k = true) :
    keyDown s.keys k = true := by
  by_contra hup
  obtain ⟨x, rfl, rfl | rfl⟩ := exec_key_changes h fun e => hup (e ▸ hk)
  all_goals
    cases h
    rw [skipIf_keys, keyDown_consumeKey, if_pos rfl] at hk
    cases hk

/-! ### The other agents -/

@[simp] theorem timerTick_mem (s : State) : s.timerTick.mem = s.mem := by unfold State.timerTick; split <;> rfl
@[simp] theorem timerTick_fb (s : State) : s.timerTick.fb = s.fb := by unfold State.timerTick; split <;> rfl
@[simp] theorem timerTick_keys (s : State) : s.timerTick.keys = s.keys := by unfold State.timerTick; split <;> rfl
@[simp] theorem stop_mem (s : State) : s.stop.mem = s.mem := by unfold State.stop; split <;> rfl
@[simp] theorem stop_fb (s : State) : s.stop.fb = s.fb := by unfold State.stop; split <;> rfl
@[simp] theorem stop_keys (s : State) : s.stop.keys = s.keys := by unfold State.stop; split <;> rfl
@[simp] theorem press_mem (s : State) (k : Nibble) : (s.press k).mem = s.mem := by unfold State.press; split <;> rfl
@[simp] theorem press_fb (s : State) (k : Nibble) : (s.press k).fb = s.fb := by unfold State.press; split <;> rfl
@[simp] theorem press_keys (s : State) (k : Nibble) : (s.press k).keys = keySet s.keys k := by
  unfold State.press; split <;> rfl

/-- A step that is no reset executes an instruction, or keeps memory and framebuffer and changes no key but that of a
`Press` or `Release`. -/
theorem step_executes_or_keeps (h : step s = .next t) (hreset : ¬ s.resetNext) :
    (∃ w i u, s.executes w i ∧ exec i (s.fetched w) = .next u ∧ t = u.finish) ∨
    (t.mem = s.mem ∧ t.fb = s.fb ∧
      (t.keys = s.keys ∨ (∃ k rest, s.schedule = .press k :: rest ∧ t.keys = keySet s.keys k) ∨
        ∃ k rest, s.schedule = .release k :: rest ∧ t.keys = keyClear s.keys k)) := by
  rcases step_cases h with ⟨hnext, hcore⟩ | ⟨rest, -, rfl⟩ | ⟨k, rest, hs, rfl⟩ | ⟨k, rest, hs, rfl⟩ |
    ⟨rest, -, rfl⟩ | ⟨rom, rest, hs, -⟩
  · rcases instructionStep_cases hcore with ⟨-, rfl⟩ | ⟨-, -, rfl⟩ | ⟨w, e, -, -, -, rfl⟩ |
      ⟨w, i, u, hrun, hf, hd, hu, rfl⟩
    · exact .inr ⟨rfl, rfl, .inl rfl⟩
    · exact .inr ⟨rfl, rfl, .inl rfl⟩
    · exact .inr ⟨rfl, rfl, .inl rfl⟩
    · exact .inl ⟨w, i, u, ⟨hrun, hnext, hf, hd⟩, hu, rfl⟩
  · exact .inr ⟨timerTick_mem _, timerTick_fb _, .inl (timerTick_keys _)⟩
  · exact .inr ⟨press_mem _ k, press_fb _ k, .inr (.inl ⟨k, rest, hs, press_keys _ k⟩)⟩
  · exact .inr ⟨rfl, rfl, .inr (.inr ⟨k, rest, hs, rfl⟩)⟩
  · exact .inr ⟨stop_mem _, stop_fb _, .inl (stop_keys _)⟩
  · exact absurd ⟨rom, rest, hs⟩ hreset

theorem step_mem_changes (h : step s = .next t) (hreset : ¬ s.resetNext) (hne : t.mem ≠ s.mem) :
    ∃ w x, s.executes w (.ldB x) ∨ s.executes w (.stRegs x) := by
  rcases step_executes_or_keeps h hreset with ⟨w, i, u, hx, hu, rfl⟩ | ⟨hmem, -, -⟩
  · rw [finish_mem] at hne
    obtain ⟨x, rfl | rfl⟩ := exec_mem_changes hu hne
    · exact ⟨w, x, .inl hx⟩
    · exact ⟨w, x, .inr hx⟩
  · exact absurd hmem hne

theorem step_fb_changes (h : step s = .next t) (hreset : ¬ s.resetNext) (hne : t.fb ≠ s.fb) :
    ∃ w, s.executes w .cls ∨ ∃ x y n, s.executes w (.drw x y n) := by
  rcases step_executes_or_keeps h hreset with ⟨w, i, u, hx, hu, rfl⟩ | ⟨-, hfb, -⟩
  · rw [finish_fb] at hne
    rcases exec_fb_changes hu hne with rfl | ⟨x, y, n, rfl⟩
    · exact ⟨w, .inl hx⟩
    · exact ⟨w, .inr ⟨x, y, n, hx⟩⟩
  · exact absurd hfb hne

theorem step_key_released {k : Nibble} (h : step s = .next t) (hreset : ¬ s.resetNext) (hs : keyDown s.keys k = true)
    (ht : keyDown t.keys k = false) :
    (∃ w x, lowNibble (s.readV x) = k ∧ (s.executes w (.skp x) ∨ s.executes w (.sknp x))) ∨
      ∃ rest, s.schedule = .release k :: rest := by
  rcases step_executes_or_keeps h hreset with
    ⟨w, i, u, hx, hu, rfl⟩ | ⟨-, -, hkeys | ⟨j, rest, -, hkeys⟩ | ⟨j, rest, hsched, hkeys⟩⟩
  · rw [finish_keys] at ht
    have hne : keyDown u.keys k ≠ keyDown (s.fetched w).keys k := by simp [ht, hs]
    obtain ⟨x, hk, rfl | rfl⟩ := exec_key_changes hu hne
    · exact .inl ⟨w, x, hk, .inl hx⟩
    · exact .inl ⟨w, x, hk, .inr hx⟩
  · rw [hkeys, hs] at ht; cases ht
  · rw [hkeys, keyDown_keySet, hs, ite_self] at ht; cases ht
  · rw [hkeys, keyDown_keyClear, hs] at ht
    split at ht
    · next hkj => exact .inr ⟨rest, hkj ▸ hsched⟩
    · cases ht

theorem step_key_pressed {k : Nibble} (h : step s = .next t) (hreset : ¬ s.resetNext) (hs : keyDown s.keys k = false)
    (ht : keyDown t.keys k = true) : ∃ rest, s.schedule = .press k :: rest := by
  rcases step_executes_or_keeps h hreset with
    ⟨w, i, u, -, hu, rfl⟩ | ⟨-, -, hkeys | ⟨j, rest, hsched, hkeys⟩ | ⟨j, rest, -, hkeys⟩⟩
  · rw [finish_keys] at ht
    have hdown : keyDown (s.fetched w).keys k = true := exec_keyDown_of_keyDown hu ht
    rw [fetched_keys, hs] at hdown; cases hdown
  · rw [hkeys, hs] at ht; cases ht
  · rw [hkeys, keyDown_keySet, hs] at ht
    split at ht
    · next hkj => exact ⟨rest, hkj ▸ hsched⟩
    · cases ht
  · rw [hkeys, keyDown_keyClear, hs, ite_self] at ht; cases ht

/-- Settles O27, space by space. -/
theorem spacesReachedOnlyAsListed : Obligations.SpacesReachedOnlyAsListed := fun _ _ h hreset =>
  ⟨step_mem_changes h hreset, step_fb_changes h hreset, fun _ => step_key_released h hreset,
    fun _ => step_key_pressed h hreset⟩

end Sys2Proof.Machine

/-! ## The encoding: the decoder, the encoder and the opcode table agree (R90 to R101) -/

namespace Sys2Proof

variable {w : Word} {i : Instr} {e : DecodeError} {r : OpcodeRow} {op n : Nibble} {nn : Byte}

/-! ### Decoding what was encoded -/

/-- The decoder branches on the fields of the packed word, and each is the one the encoder packed (R93, R97). -/
theorem decodeWord_encode (i : Instr) : decodeWord (encode i) = .ok i := by
  cases i with
  | cls | ret => rfl
  | jp | call | ldI | jpV0 => simp [encode, decodeWord]
  | seNn | sneNn | ldNn | addNn | rnd | drw => simp [encode, decodeWord]
  | seVy => simp [encode, decodeWord, decodeFamily5]
  | ldVy | or | and | xor | addVy | sub | shr | subn | shl => simp [encode, decodeWord, decodeFamily8]
  | sneVy => simp [encode, decodeWord, decodeFamily9]
  | skp | sknp => simp [encode, decodeWord, decodeFamilyE]
  | ldVxDt | ldVxK | ldDtVx | ldStVx | addI | ldF | ldB | stRegs | ldRegs => simp [encode, decodeWord, decodeFamilyF]

/-- The legal words are the encodings, each of one instruction. -/
theorem decodeWord_ok_iff : decodeWord w = .ok i ↔ encode i = w :=
  ⟨encode_of_decodeWord, fun h => h ▸ decodeWord_encode i⟩

/-- Settles O2: the two bytes joined are the encoded word, which decodes to its instruction. -/
theorem decodeOfEncodeIsIdentity : Obligations.DecodeOfEncodeIsIdentity := by
  intro i rest _
  simp [encodeBytes, decode, wordOfBytes_bytes, decodeWord_encode]

/-- Settles O3, by the decoder's families (`encode_of_decodeWord`). -/
theorem encodeOfDecodeIsIdentity : Obligations.EncodeOfDecodeIsIdentity :=
  fun _ _ => encode_of_decodeWord

/-- Settles O1: each word is the encoding of the instruction it is claimed to decode to. -/
theorem sampleWordsDecode : Obligations.SampleWordsDecode := by
  simp only [Obligations.SampleWordsDecode, decodeWord_ok_iff]
  decide

/-! ### The fields of a word (R92) -/

theorem nnField_eq_append (w : Word) : nnField w = yField w ++ nField w := by
  apply BitVec.eq_of_toNat_eq; rw [toNat_append_eq, toNat_nnField, toNat_yField, toNat_nField]; omega

theorem nnnField_eq_append (w : Word) : nnnField w = xField w ++ yField w ++ nField w := by
  apply BitVec.eq_of_toNat_eq
  rw [toNat_append_eq, toNat_append_eq, toNat_nnnField, toNat_xField, toNat_yField, toNat_nField]; omega

theorem highByte_eq_append (w : Word) : highByte w = opField w ++ xField w := by
  apply BitVec.eq_of_toNat_eq; rw [toNat_append_eq, toNat_highByte, toNat_opField, toNat_xField]; omega

/-- Settles O6. The byte at the higher address is `NN`. -/
theorem fieldsMakeUpTheWord : Obligations.FieldsMakeUpTheWord := fun w =>
  ⟨nnField_eq_append w, nnnField_eq_append w, (packR_fields w).symm, highByte_eq_append w, nnField_eq_append w,
    wordOfBytes_bytes w⟩

/-! ### The illegal words, family by family (R101) -/

theorem decodeFamily0_error : decodeFamily0 w = .error e ↔ (w ≠ 0x00E0#16 ∧ w ≠ 0x00EE#16) ∧ .illegalWord w = e := by
  unfold decodeFamily0
  split
  · simp [*]
  · split <;> simp [*]

theorem decodeFamily5_error : decodeFamily5 w = .error e ↔ nField w ≠ 0x0#4 ∧ .illegalWord w = e := by
  unfold decodeFamily5
  split <;> simp [*]

theorem decodeFamily8_error : decodeFamily8 w = .error e ↔
    nField w ∈ [0x8#4, 0x9#4, 0xA#4, 0xB#4, 0xC#4, 0xD#4, 0xF#4] ∧ .illegalWord w = e := by
  unfold decodeFamily8
  split
  case h_10 =>
    simp only [imp_false] at *
    have hn : nField w ∈ [0x8#4, 0x9#4, 0xA#4, 0xB#4, 0xC#4, 0xD#4, 0xF#4] := by
      have := (nField w).isLt
      simp only [List.mem_cons, List.not_mem_nil, or_false, ← BitVec.toNat_inj, BitVec.toNat_ofNat]
      omega
    simp [hn]
  all_goals simp [← BitVec.toNat_inj, *]

theorem decodeFamily9_error : decodeFamily9 w = .error e ↔ nField w ≠ 0x0#4 ∧ .illegalWord w = e := by
  unfold decodeFamily9
  split <;> simp [*]

theorem decodeFamilyE_error : decodeFamilyE w = .error e ↔ nnField w ∉ [0x9E#8, 0xA1#8] ∧ .illegalWord w = e := by
  unfold decodeFamilyE
  split
  · simp [*]
  · split <;> simp [*]

theorem decodeFamilyF_error : decodeFamilyF w = .error e ↔
    nnField w ∉ [0x07#8, 0x0A#8, 0x15#8, 0x18#8, 0x1E#8, 0x29#8, 0x33#8, 0x55#8, 0x65#8] ∧ .illegalWord w = e := by
  unfold decodeFamilyF
  split
  case h_10 =>
    simp only [imp_false] at *
    simp [← BitVec.toNat_inj, *]
  all_goals simp [← BitVec.toNat_inj, *]

/-- The six groups of R101's table of illegal words. -/
def IllegalGroup (w : Word) : Prop :=
  (opField w = 0x0#4 ∧ w ≠ 0x00E0#16 ∧ w ≠ 0x00EE#16) ∨
  (opField w = 0x5#4 ∧ nField w ≠ 0x0#4) ∨
  (opField w = 0x8#4 ∧ nField w ∈ [0x8#4, 0x9#4, 0xA#4, 0xB#4, 0xC#4, 0xD#4, 0xF#4]) ∨
  (opField w = 0x9#4 ∧ nField w ≠ 0x0#4) ∨
  (opField w = 0xE#4 ∧ nnField w ∉ [0x9E#8, 0xA1#8]) ∨
  (opField w = 0xF#4 ∧ nnField w ∉ [0x07#8, 0x0A#8, 0x15#8, 0x18#8, 0x1E#8, 0x29#8, 0x33#8, 0x55#8, 0x65#8])

/-- A word is rejected exactly in its family's group, and the rejection names it. -/
theorem decodeWord_error : decodeWord w = .error e ↔ IllegalGroup w ∧ .illegalWord w = e := by
  unfold decodeWord IllegalGroup
  split
  case h_1 | h_6 | h_9 | h_10 | h_15 | h_16 =>
    simp only [decodeFamily0_error, decodeFamily5_error, decodeFamily8_error, decodeFamily9_error, decodeFamilyE_error,
      decodeFamilyF_error]
    simp [← BitVec.toNat_inj (x := opField w), *]
  case h_17 =>
    simp only [imp_false] at *
    have := (opField w).isLt
    omega
  all_goals simp [← BitVec.toNat_inj (x := opField w), *]

/-- Settles O5, family by family. -/
theorem illegalWordsAreExactly : Obligations.IllegalWordsAreExactly := fun w =>
  ⟨fun ⟨_, h⟩ => (decodeWord_error.mp h).1, fun h => ⟨.illegalWord w, decodeWord_error.mpr ⟨h, rfl⟩⟩⟩

/-! ### The rows of the opcode table (R95, R96) -/

theorem rowOf_mem_opcodeTable (i : Instr) : rowOf i ∈ opcodeTable := by
  cases i <;> simp [opcodeTable, opcodeTableLow, opcodeTableMid, opcodeTableHigh, rowOf]

/-- The table holds no row but those of instructions. -/
theorem exists_rowOf_of_mem (h : r ∈ opcodeTable) : ∃ i, r = rowOf i := by
  simp only [opcodeTable, opcodeTableLow, opcodeTableMid, opcodeTableHigh, List.mem_append, List.mem_cons,
    List.not_mem_nil, or_false] at h
  casesm* _ ∨ _ <;> exact ⟨_, ‹_›⟩

/-- The encoding of each instruction satisfies its own row, as shown constructor by constructor in `RowSelects`. -/
theorem rowOf_selects_encode (i : Instr) : (rowOf i).selects (encode i) = true := by
  cases i
  open Laws.RowSelects in
  exacts [cls, ret, jp _, call _, seNn _ _, sneNn _ _, seVy _ _, ldNn _ _, addNn _ _, ldVy _ _, or _ _, and _ _,
    xor _ _, addVy _ _, sub _ _, shr _ _, subn _ _, shl _ _, sneVy _ _, ldI _, jpV0 _, rnd _ _, drw _ _ _, skp _, sknp _,
    ldVxDt _, ldVxK _, ldDtVx _, ldStVx _, addI _, ldF _, ldB _, stRegs _, ldRegs _]

/-- Two rows that one word satisfies agree on the bits both fix. -/
theorem bits_agree_of_selects {r r' : OpcodeRow} (h : r.selects w = true) (h' : r'.selects w = true) :
    r.bits &&& r'.mask = r'.bits &&& r.mask := by
  rw [← beq_iff_eq.mp h, ← beq_iff_eq.mp h', BitVec.and_assoc, BitVec.and_assoc, BitVec.and_comm r.mask]

/-- Any two rows of the table differ in a bit that both fix. -/
theorem eq_of_bits_agree : ∀ r ∈ opcodeTable, ∀ r' ∈ opcodeTable, r.bits &&& r'.mask = r'.bits &&& r.mask → r = r' := by
  decide

/-! A word that satisfies the mask and match of a row is packed from the row's fixed fields and its own fields. -/

theorem eq_bits_of_selects (hm : r.mask = 0xFFFF#16) (h : r.selects w = true) : r.bits = w := by
  rw [selects_maskAll hm, decide_eq_true_eq] at h
  exact h.symm

theorem opField_of_selects (hm : r.mask = 0xF000#16) (hb : r.bits = packA op 0) (h : r.selects w = true) :
    opField w = op := by
  rwa [selects_maskOp hm (by simp [hb]), hb, opField_packA, decide_eq_true_eq] at h

theorem packA_of_selects (hm : r.mask = 0xF000#16) (hb : r.bits = packA op 0) (h : r.selects w = true) :
    packA op (nnnField w) = w := by
  rw [← opField_of_selects hm hb h, packA_fields]

theorem packI_of_selects (hm : r.mask = 0xF000#16) (hb : r.bits = packA op 0) (h : r.selects w = true) :
    packI op (xField w) (nnField w) = w := by
  rw [← opField_of_selects hm hb h, packI_fields]

theorem packR_of_selects (hm : r.mask = 0xF000#16) (hb : r.bits = packA op 0) (h : r.selects w = true) :
    packR op (xField w) (yField w) (nField w) = w := by
  rw [← opField_of_selects hm hb h, packR_fields]

theorem packR_of_selects_n (hm : r.mask = 0xF00F#16) (hb : r.bits = packR op 0 0 n) (h : r.selects w = true) :
    packR op (xField w) (yField w) n = w := by
  rw [selects_maskOpN hm (by simp [hb]), hb, opField_packR, nField_packR, decide_eq_true_eq] at h
  rw [← h.1, ← h.2, packR_fields]

theorem packI_of_selects_nn (hm : r.mask = 0xF0FF#16) (hb : r.bits = packI op 0 nn) (h : r.selects w = true) :
    packI op (xField w) nn = w := by
  rw [selects_maskOpNn hm (by simp [hb]), hb, opField_packI, nnField_packI, decide_eq_true_eq] at h
  rw [← h.1, ← h.2, packI_fields]

/-- A word that satisfies the row of an instruction is the encoding of an instruction: of the same one, with the
operands that the word holds. -/
theorem exists_encode_of_selects (h : (rowOf i).selects w = true) : ∃ j, encode j = w := by
  cases i with
  | cls => exact ⟨.cls, eq_bits_of_selects rfl h⟩
  | ret => exact ⟨.ret, eq_bits_of_selects rfl h⟩
  | jp => exact ⟨.jp _, packA_of_selects rfl rfl h⟩
  | call => exact ⟨.call _, packA_of_selects rfl rfl h⟩
  | seNn => exact ⟨.seNn _ _, packI_of_selects rfl rfl h⟩
  | sneNn => exact ⟨.sneNn _ _, packI_of_selects rfl rfl h⟩
  | seVy => exact ⟨.seVy _ _, packR_of_selects_n rfl rfl h⟩
  | ldNn => exact ⟨.ldNn _ _, packI_of_selects rfl rfl h⟩
  | addNn => exact ⟨.addNn _ _, packI_of_selects rfl rfl h⟩
  | ldVy => exact ⟨.ldVy _ _, packR_of_selects_n rfl rfl h⟩
  | or => exact ⟨.or _ _, packR_of_selects_n rfl rfl h⟩
  | and => exact ⟨.and _ _, packR_of_selects_n rfl rfl h⟩
  | xor => exact ⟨.xor _ _, packR_of_selects_n rfl rfl h⟩
  | addVy => exact ⟨.addVy _ _, packR_of_selects_n rfl rfl h⟩
  | sub => exact ⟨.sub _ _, packR_of_selects_n rfl rfl h⟩
  | shr => exact ⟨.shr _ _, packR_of_selects_n rfl rfl h⟩
  | subn => exact ⟨.subn _ _, packR_of_selects_n rfl rfl h⟩
  | shl => exact ⟨.shl _ _, packR_of_selects_n rfl rfl h⟩
  | sneVy => exact ⟨.sneVy _ _, packR_of_selects_n rfl rfl h⟩
  | ldI => exact ⟨.ldI _, packA_of_selects rfl rfl h⟩
  | jpV0 => exact ⟨.jpV0 _, packA_of_selects rfl rfl h⟩
  | rnd => exact ⟨.rnd _ _, packI_of_selects rfl rfl h⟩
  | drw => exact ⟨.drw _ _ _, packR_of_selects rfl rfl h⟩
  | skp => exact ⟨.skp _, packI_of_selects_nn rfl rfl h⟩
  | sknp => exact ⟨.sknp _, packI_of_selects_nn rfl rfl h⟩
  | ldVxDt => exact ⟨.ldVxDt _, packI_of_selects_nn rfl rfl h⟩
  | ldVxK => exact ⟨.ldVxK _, packI_of_selects_nn rfl rfl h⟩
  | ldDtVx => exact ⟨.ldDtVx _, packI_of_selects_nn rfl rfl h⟩
  | ldStVx => exact ⟨.ldStVx _, packI_of_selects_nn rfl rfl h⟩
  | addI => exact ⟨.addI _, packI_of_selects_nn rfl rfl h⟩
  | ldF => exact ⟨.ldF _, packI_of_selects_nn rfl rfl h⟩
  | ldB => exact ⟨.ldB _, packI_of_selects_nn rfl rfl h⟩
  | stRegs => exact ⟨.stRegs _, packI_of_selects_nn rfl rfl h⟩
  | ldRegs => exact ⟨.ldRegs _, packI_of_selects_nn rfl rfl h⟩

/-- A legal word satisfies the row of its instruction and no other: any two rows differ in a bit both fix. -/
theorem selects_iff_of_decodeWord (hd : decodeWord w = .ok i) (hr : r ∈ opcodeTable) :
    r.selects w = true ↔ r = rowOf i := by
  have hrow : (rowOf i).selects w = true := encode_of_decodeWord hd ▸ rowOf_selects_encode i
  constructor
  · intro h
    exact eq_of_bits_agree r hr (rowOf i) (rowOf_mem_opcodeTable i) (bits_agree_of_selects h hrow)
  · rintro rfl
    exact hrow

/-- A word is legal when it satisfies a row of the table. -/
theorem decodeWord_ok_of_selects (hr : r ∈ opcodeTable) (h : r.selects w = true) : ∃ i, decodeWord w = .ok i := by
  obtain ⟨i, rfl⟩ := exists_rowOf_of_mem hr
  obtain ⟨j, rfl⟩ := exists_encode_of_selects h
  exact ⟨j, decodeWord_encode j⟩

/-- A word that satisfies no row is rejected (R101). -/
theorem decodeWord_error_of_not_selects (h : ∀ r ∈ opcodeTable, r.selects w = false) :
    decodeWord w = .error (.illegalWord w) := by
  cases hd : decodeWord w with
  | ok i =>
    have hrow := (selects_iff_of_decodeWord hd (rowOf_mem_opcodeTable i)).mpr rfl
    rw [h _ (rowOf_mem_opcodeTable i)] at hrow
    cases hrow
  | error e => rw [(decodeWord_error.mp hd).2]

/-- Settles O4: a legal word by the difference of any two rows, an illegal one because a row's word is legal. -/
theorem decoderSelectsTheTableRow : Obligations.DecoderSelectsTheTableRow := by
  intro w
  constructor
  · exact fun i hd => ⟨rowOf_mem_opcodeTable i, fun r hr => selects_iff_of_decodeWord hd hr⟩
  · refine fun e hd => ⟨(decodeWord_error.mp hd).2.symm, fun r hr => Bool.eq_false_iff.mpr fun h => ?_⟩
    obtain ⟨i, hi⟩ := decodeWord_ok_of_selects hr h
    rw [hd] at hi
    cases hi

end Sys2Proof

/-! ## The faults of fetching and decoding (R91, R101, R215) -/

namespace Sys2Proof.Machine

variable {s : State} {w : Word}

theorem fetch_of_gt (h : 0xFFE < s.pc.toNat) : s.fetch = none := if_pos h

/-- A core that runs and cannot fetch takes trap entry with cause 2 and no word (R91, R215). -/
theorem instructionStep_fetch_none (hrun : s.run = .running) (hf : s.fetch = none) :
    instructionStep s = .next (s.takeTrap .memoryOutOfBounds 0x0000#16) := by
  simp [instructionStep, hrun, hf]

/-- A core that runs and fetches a word that is no instruction takes trap entry with cause 1 and the word (R101). -/
theorem instructionStep_illegal {e : DecodeError} (hrun : s.run = .running) (hf : s.fetch = some w)
    (hd : decodeWord w = .error e) : instructionStep s = .next ((s.writeIr w).takeTrap .illegalOpcode w) := by
  simp [instructionStep, hrun, hf, runWord, hd]

/-- Settles O45: fetching tests `PC` alone, and the core's step without a word is trap entry. -/
theorem fetchReadsTwoBytesOrFaults : Obligations.FetchReadsTwoBytesOrFaults := by
  refine fun s => ⟨fetch_of_le, fun hrun hnext hpc => ?_⟩
  have hstep := (step_coreNext hnext).trans (instructionStep_fetch_none hrun (fetch_of_gt hpc))
  exact ⟨_, hstep, rfl, rfl, rfl, rfl, takeTrap_onlyTraps _ _ _⟩

/-- Settles O46: a word of no row is rejected by the decoder, and the core's step with such a word is trap entry. -/
theorem illegalWordHalts : Obligations.IllegalWordHalts := by
  intro s w hrun hnext hf hrows
  have hd := decodeWord_error_of_not_selects hrows
  have hstep := (step_coreNext hnext).trans (instructionStep_illegal hrun hf hd)
  exact ⟨_, hstep, rfl, rfl, rfl, rfl, rfl, takeTrap_onlyTraps (s.fetched w) _ _⟩

end Sys2Proof.Machine

/-! ## Control transfer (R120 to R129) -/

namespace Sys2Proof.Machine

variable {i : Instr} {s t : State} {w : Word}

/-! ### One instruction: its word, its frame, its fault -/

theorem encodedAs_encode (i : Instr) : EncodedAs i (encode i) := ⟨rfl, decodeWord_encode i⟩

/-- The frame of an instruction that completes and is no store: it keeps memory as data, so in every state. -/
theorem exec_onlyWrites (h : exec i s = .next t) (hr : raises i s = none) (hi : ∀ x, i ≠ .ldB x ∧ i ≠ .stRegs x) :
    OnlyWrites i s t := by
  intro l hl
  cases l with
  | mem a => exact congrArg (Memory.read · a) (exec_mem_eq h hi)
  | _ => exact exec_same h hr nofun hl

/-- An instruction whose condition of R216 holds answers the state of trap entry (R217). -/
theorem exec_traps {c : TrapCause} (hr : raises i s = some c) :
    ∃ t, exec i s = .next t ∧ t.run = .halted ∧ t.faultCause = c.code ∧ t.faultInstr = s.ir ∧ t.faultPc = s.pc ∧
      OnlyTraps s t :=
  ⟨_, exec_raises hr, rfl, rfl, rfl, rfl, takeTrap_onlyTraps s c s.ir⟩

/-! ### Jumps and skips -/

/-- Settles O8. -/
theorem jpSetsThePc : Obligations.JpSetsThePc := fun nnn s =>
  ⟨encodedAs_encode (.jp nnn), s.jump (addressOf nnn), rfl, toNat_addressOf nnn,
    exec_onlyWrites rfl rfl fun _ => ⟨nofun, nofun⟩⟩

/-- Settles O11: the mask of the target is the remainder modulo 4096 (`toNat_offsetTarget`). -/
theorem jpV0WrapsInsideMemory : Obligations.JpV0WrapsInsideMemory := fun nnn s =>
  ⟨encodedAs_encode (.jpV0 nnn), s.jump (offsetTarget (s.readV 0x0#4) nnn), rfl, toNat_offsetTarget _ nnn,
    exec_onlyWrites rfl rfl fun _ => ⟨nofun, nofun⟩⟩

theorem toNat_skipIf_pc (s : State) (c : Prop) [Decidable c] :
    (s.skipIf c).pc.toNat = (s.pc.toNat + if c then 4 else 2) % 65536 := by
  rw [skipIf_pc]
  split <;> exact BitVec.toNat_add _ _

/-- A skip on a negated condition (R125, R127). -/
theorem toNat_skipIf_not_pc (s : State) (c : Prop) [Decidable c] :
    (s.skipIf ¬c).pc.toNat = (s.pc.toNat + if c then 2 else 4) % 65536 := by
  rw [toNat_skipIf_pc, ite_not]

/-- Settles O10: each skip is a `skipIf` of its comparison, negated for 4XNN and 9XY0; the frames are what is left. -/
theorem skipsCompareAndAdvance : Obligations.SkipsCompareAndAdvance := by
  intro x y nn s
  refine ⟨⟨encodedAs_encode (.seNn x nn), _, rfl, toNat_skipIf_pc s _, ?_⟩,
    ⟨encodedAs_encode (.sneNn x nn), _, rfl, toNat_skipIf_not_pc s _, ?_⟩,
    ⟨encodedAs_encode (.seVy x y), _, rfl, toNat_skipIf_pc s _, ?_⟩,
    ⟨encodedAs_encode (.sneVy x y), _, rfl, toNat_skipIf_not_pc s _, ?_⟩⟩
  all_goals exact exec_onlyWrites rfl rfl fun _ => ⟨nofun, nofun⟩

/-! ### Call and return -/

theorem raises_call_full {nnn : Imm12} (h : s.sp = 16#5) : raises (.call nnn) s = some .stackOverflow := if_pos h

theorem raises_ret_empty (h : s.sp = 0#5) : raises .ret s = some .stackUnderflow := if_pos h

/-- Settles O9: with a free slot the call pushes and jumps, with none its condition of R216 holds. -/
theorem callPushesTheCallSite : Obligations.CallPushesTheCallSite := by
  refine fun nnn s => ⟨encodedAs_encode (.call nnn), fun h => ?_, fun hfull => exec_traps (raises_call_full hfull)⟩
  have hr : raises (.call nnn) s = none := if_neg (by bv_omega)
  have hcall : exec (.call nnn) s = .next ((s.push h s.pc).jump (addressOf nnn)) := execCall_ok nnn h
  refine ⟨_, hcall, by simp, ?_, toNat_addressOf nnn, exec_onlyWrites hcall hr fun _ => ⟨nofun, nofun⟩⟩
  rw [jump_sp, push_sp]
  bv_omega

/-- Settles O7: with a call site on the stack the return pops it, with none its condition of R216 holds. -/
theorem retResumesAfterTheCallSite : Obligations.RetResumesAfterTheCallSite := by
  refine ⟨encodedAs_encode .ret, fun s => ⟨fun h => ?_, fun hempty => exec_traps (raises_ret_empty hempty)⟩⟩
  obtain ⟨hpos, hle⟩ := h
  have hr : raises .ret s = none := if_neg (by bv_omega)
  have hret : exec .ret s = .next (s.pop.jump (s.readSlot (s.sp.toNat - 1) (by omega) + 2#16)) := execRet_ok hpos _
  refine ⟨_, hret, ?_, BitVec.toNat_add _ _, exec_onlyWrites hret hr fun _ => ⟨nofun, nofun⟩⟩
  rw [jump_sp, pop_sp]
  bv_omega

/-! ### The round trip: a pending call keeps its slot (R129) -/

/-- While slot `k` is occupied it holds the call site `a`. -/
def State.PendingCall (s : State) (k : Fin 16) (a : Word) : Prop := k.val < s.sp.toNat → s.stack[k.val] = a

/-- A call site just pushed is pending in its slot. -/
theorem pendingCall_push (s : State) (h : s.sp.toNat < 16) (a : Word) :
    (s.push h a).PendingCall ⟨s.sp.toNat, h⟩ a := fun _ => by simp

/-- Only a call with `SP = k` occupies the slot `k` anew, and only a call writes a slot. -/
theorem State.PendingCall.exec {k : Fin 16} {a : Word} (hp : s.PendingCall k a)
    (hcall : ∀ nnn, i = .call nnn → s.sp.toNat ≠ k.val) (h : exec i s = .next t) : t.PendingCall k a := by
  cases hr : raises i s with
  | some c =>
    rw [exec_raises hr] at h
    cases h
    exact hp
  | none =>
    intro hlt
    cases i
    case ret =>
      have h0 : s.sp ≠ 0#5 := by simpa [raises] using hr
      obtain ⟨hk, rfl⟩ := exec_ret_completed h hr
      rw [jump_sp, pop_sp] at hlt
      exact hp (by bv_omega)
    case call nnn =>
      have hne := hcall nnn rfl
      obtain ⟨hk, rfl⟩ := exec_call_completed h hr
      rw [jump_sp, push_sp] at hlt
      simp only [jump_stack, push_stack, Vector.getElem_set, if_neg hne]
      exact hp (by bv_omega)
    all_goals
      have hsp : t.sp = s.sp := exec_same (l := .sp) h hr nofun (by simp [mayWrite])
      have hslot : t.stack[k.val] = s.stack[k.val] := exec_same (l := .slot k) h hr nofun (by simp [mayWrite])
      rw [hslot]
      exact hp (hsp ▸ hlt)

/-- A step that is no reset executes an instruction, or keeps the stack. -/
theorem step_executes_or_keeps_stack (h : step s = .next t) (hreset : ¬ s.resetNext) :
    (∃ w i u, s.executes w i ∧ exec i (s.fetched w) = .next u ∧ t = u.finish) ∨ (t.sp = s.sp ∧ t.stack = s.stack) := by
  rcases step_cases h with ⟨hnext, hcore⟩ | ⟨rest, -, rfl⟩ | ⟨k, rest, -, rfl⟩ | ⟨k, rest, -, rfl⟩ |
    ⟨rest, -, rfl⟩ | ⟨rom, rest, hs, -⟩
  · rcases instructionStep_cases hcore with ⟨-, rfl⟩ | ⟨-, -, rfl⟩ | ⟨w, e, -, -, -, rfl⟩ |
      ⟨w, i, u, hrun, hf, hd, hu, rfl⟩
    · exact .inr ⟨rfl, rfl⟩
    · exact .inr ⟨rfl, rfl⟩
    · exact .inr ⟨rfl, rfl⟩
    · exact .inl ⟨w, i, u, ⟨hrun, hnext, hf, hd⟩, hu, rfl⟩
  · unfold State.timerTick; split <;> exact .inr ⟨rfl, rfl⟩
  · unfold State.press; split <;> exact .inr ⟨rfl, rfl⟩
  · exact .inr ⟨rfl, rfl⟩
  · unfold State.stop; split <;> exact .inr ⟨rfl, rfl⟩
  · exact absurd ⟨rom, rest, hs⟩ hreset

/-- Within a call, however deep the calls inside it go, the slot of the call keeps its call site. -/
theorem State.PendingCall.withinCall {k : Fin 16} {a : Word} (hp : s.PendingCall k a) (h : WithinCall k.val s t) :
    t.PendingCall k a := by
  induction h with
  | here => exact hp
  | @next t u before taken noReset noCall ih =>
    rcases step_executes_or_keeps_stack taken noReset with ⟨w, i, v, hx, hv, rfl⟩ | ⟨hsp, hstack⟩
    · have hfetched : (t.fetched w).PendingCall k a := ih
      have hpv : v.PendingCall k a := hfetched.exec (fun nnn hi => noCall w nnn (hi ▸ hx)) hv
      simpa only [State.PendingCall, finish_sp, finish_stack] using hpv
    · simpa only [State.PendingCall, hsp, hstack] using ih

/-- The step of a state that executes an instruction is the instruction's meaning and the end of the step. -/
theorem step_of_executes (hx : s.executes w i) (h : exec i (s.fetched w) = .next t) : step s = .next t.finish := by
  obtain ⟨hrun, hnext, hf, hd⟩ := hx
  exact (step_coreNext hnext).trans (instructionStep_exec hrun hf hd h)

@[simp] theorem fetched_pc (s : State) (w : Word) : (s.fetched w).pc = s.pc := rfl
@[simp] theorem fetched_sp (s : State) (w : Word) : (s.fetched w).sp = s.sp := rfl
@[simp] theorem fetched_readSlot (s : State) (w : Word) (k : Nat) (h : k < 16) :
    (s.fetched w).readSlot k h = s.readSlot k h := rfl

/-- A step that executes a call leaves the address of the call pending. -/
theorem pendingCall_of_executes_call {nnn : Imm12} (hx : s.executes w (.call nnn)) (hlt : s.sp.toNat < 16)
    (h : step s = .next t) : t.PendingCall ⟨s.sp.toNat, hlt⟩ s.pc := by
  rw [step_of_executes hx (execCall_ok (s := s.fetched w) nnn hlt)] at h
  cases h
  rw [State.PendingCall, finish_sp, finish_stack]
  exact pendingCall_push (s.fetched w) hlt s.pc

/-- A step that executes a return with `SP = k + 1` resumes after the call site pending in slot `k`. -/
theorem step_of_executes_ret {k : Fin 16} {a : Word} (hx : s.executes w .ret) (hp : s.PendingCall k a)
    (hsp : s.sp.toNat = k.val + 1) : ∃ t, step s = .next t ∧ t.pc = a + 2#16 ∧ t.sp = s.sp - 1#5 := by
  have hk : s.sp.toNat - 1 < 16 := by omega
  have hslot : s.readSlot (s.sp.toNat - 1) hk = a := by
    rw [← hp (by omega), State.readSlot]
    simp [hsp]
  refine ⟨_, step_of_executes hx (execRet_ok (s := s.fetched w) (by simp [hsp]) hk), ?_, ?_⟩
  · simp [hslot]
  · simp

/-- Settles O12: the call leaves its own address pending, the steps within the call keep it so, and the return resumes
two bytes after it. -/
theorem callReturnRoundTrip : Obligations.CallReturnRoundTrip := by
  intro s0 s1 s2 w0 w2 nnn hcall hlt hstep hwithin hret hsp
  have hpending : s2.PendingCall ⟨s0.sp.toNat, hlt⟩ s0.pc :=
    (pendingCall_of_executes_call hcall hlt hstep).withinCall hwithin
  obtain ⟨s3, hs3, hpc, hsp3⟩ := step_of_executes_ret hret hpending hsp
  refine ⟨s3, hs3, ?_, ?_⟩
  · rw [hpc]
    exact BitVec.toNat_add _ _
  · rw [hsp3]
    bv_omega

end Sys2Proof.Machine

/-! ## Register load, arithmetic, logic, shift and random (R140 to R152)

Each of these instructions is a chain of register writes and `advance`; the order of the writes decides what VF holds
when it is also the destination (R10). -/

namespace Sys2Proof.Machine

variable {s : State} {x : Nibble} {b f : Byte}

/-! ### The order of the two register writes -/

theorem readV_writeV_same : (s.writeV x b).readV x = b := (writeV_readV s x x b).trans (if_pos rfl)

theorem readV_writeFlag_vf : (s.writeFlag f).readV vf = f := (writeFlag_readV s f vf).trans (if_pos rfl)

/-- A flag written after the result leaves it, unless the result went to VF. -/
theorem readV_writeV_writeFlag (h : x ≠ vf) : ((s.writeV x b).writeFlag f).readV x = b := by
  rw [writeFlag_readV, if_neg h, readV_writeV_same]

/-- A result written after the flag leaves it, unless the result goes to VF. -/
theorem readV_writeFlag_writeV (h : x ≠ vf) : ((s.writeFlag f).writeV x b).readV vf = f := by
  rw [writeV_readV, if_neg h, readV_writeFlag_vf]

/-! ### Bytes as numbers -/

theorem toNat_byte_sub (a b : Byte) : ((a - b).toNat : Int) = ((a.toNat : Int) - (b.toNat : Int)) % 256 := by
  have hb := b.isLt
  rw [BitVec.toNat_sub]
  omega

theorem toNat_byte_shiftRight_one (a : Byte) : (a >>> 1).toNat = a.toNat / 2 := by
  rw [BitVec.toNat_ushiftRight, Nat.shiftRight_eq_div_pow, pow_one]

theorem toNat_byte_shiftLeft_one (a : Byte) : (a <<< 1).toNat = 2 * a.toNat % 256 := by
  rw [BitVec.toNat_shiftLeft, Nat.shiftLeft_eq, pow_one, Nat.mul_comm]

/-! ### Immediates, copies and logic: one write -/

/-- Settles O13: one write to `VX`; the frames are what is left. -/
theorem immediateLoadAndAdd : Obligations.ImmediateLoadAndAdd := by
  intro x nn s
  have hsum : (s.writeV x (s.readV x + nn)).readV x = s.readV x + nn := readV_writeV_same
  refine ⟨⟨encodedAs_encode (.ldNn x nn), _, rfl, readV_writeV_same, rfl, ?_⟩,
    ⟨encodedAs_encode (.addNn x nn), _, rfl, (congrArg _ hsum).trans (BitVec.toNat_add _ _), rfl, ?_⟩⟩
  all_goals exact exec_onlyWrites rfl rfl fun _ => ⟨nofun, nofun⟩

/-- Settles O14: one write to `VX`; the frames are what is left. -/
theorem copyAndLogic : Obligations.CopyAndLogic := by
  intro x y s
  refine ⟨⟨encodedAs_encode (.ldVy x y), _, rfl, readV_writeV_same, rfl, ?_⟩,
    ⟨encodedAs_encode (.or x y), _, rfl, readV_writeV_same, rfl, ?_⟩,
    ⟨encodedAs_encode (.and x y), _, rfl, readV_writeV_same, rfl, ?_⟩,
    ⟨encodedAs_encode (.xor x y), _, rfl, readV_writeV_same, rfl, ?_⟩⟩
  all_goals exact exec_onlyWrites rfl rfl fun _ => ⟨nofun, nofun⟩

/-! ### Arithmetic: the result, then the flag -/

/-- Settles O15: the carry is written after the sum, so it is what VF holds. -/
theorem addWithCarryOut : Obligations.AddWithCarryOut := by
  refine fun x y s => ⟨encodedAs_encode (.addVy x y), _, rfl, fun hx => ?_, ?_, rfl,
    exec_onlyWrites rfl rfl fun _ => ⟨nofun, nofun⟩⟩
  · rw [advance_readV, readV_writeV_writeFlag hx]
    exact BitVec.toNat_add _ _
  · exact readV_writeFlag_vf.trans (carryFlag_eq _ _)

/-- The difference of `a` and `c`, then the comparison: what both subtractions leave in `VX` and in VF. -/
theorem readV_difference_then_flag (s : State) (x : Nibble) (a c : Byte) :
    (x ≠ vf → ((((s.writeV x (a - c)).writeFlag (greaterFlag a c)).readV x).toNat : Int) =
      ((a.toNat : Int) - (c.toNat : Int)) % 256) ∧
    ((s.writeV x (a - c)).writeFlag (greaterFlag a c)).readV vf =
      if a.toNat > c.toNat then 0x01#8 else 0x00#8 := by
  refine ⟨fun hx => ?_, readV_writeFlag_vf.trans (greaterFlag_eq a c)⟩
  rw [readV_writeV_writeFlag hx, toNat_byte_sub]

/-- Settles O16: the comparison is written after the difference, so it is what VF holds. -/
theorem subtractSetsStrictFlag : Obligations.SubtractSetsStrictFlag := by
  intro x y s
  obtain ⟨hdiff, hflag⟩ := readV_difference_then_flag s x (s.readV x) (s.readV y)
  exact ⟨encodedAs_encode (.sub x y), _, rfl, hdiff, hflag, rfl, exec_onlyWrites rfl rfl fun _ => ⟨nofun, nofun⟩⟩

/-- Settles O17: as for 8XY5, with the operands exchanged. -/
theorem reverseSubtractSetsStrictFlag : Obligations.ReverseSubtractSetsStrictFlag := by
  intro x y s
  obtain ⟨hdiff, hflag⟩ := readV_difference_then_flag s x (s.readV y) (s.readV x)
  exact ⟨encodedAs_encode (.subn x y), _, rfl, hdiff, hflag, rfl, exec_onlyWrites rfl rfl fun _ => ⟨nofun, nofun⟩⟩

/-! ### Shifts: the flag, then the result -/

/-- Settles O18: the shifted value is written after the bit shifted out, so `VX` holds it even where `VX` is VF. -/
theorem shiftsByOne : Obligations.ShiftsByOne := by
  intro x y s
  refine ⟨⟨encodedAs_encode (.shr x y), _, rfl, ?_, fun hx => ?_, rfl, ?_⟩,
    ⟨encodedAs_encode (.shl x y), _, rfl, ?_, fun hx => ?_, rfl, ?_⟩⟩
  · rw [advance_readV, readV_writeV_same, toNat_byte_shiftRight_one]
  · rw [advance_readV, readV_writeFlag_writeV hx, toNat_shrFlag]
  · exact exec_onlyWrites rfl rfl fun _ => ⟨nofun, nofun⟩
  · rw [advance_readV, readV_writeV_same, toNat_byte_shiftLeft_one]
  · rw [advance_readV, readV_writeFlag_writeV hx, toNat_shlFlag]
  · exact exec_onlyWrites rfl rfl fun _ => ⟨nofun, nofun⟩

/-! ### The random byte -/

/-- While the stream lasts, the byte presented is its next one (R152). -/
theorem randomByte_of_cons {r : Byte} {rest : List Byte} (h : s.rnd = r :: rest) : s.randomByte = r := by
  rw [State.randomByte, h]

/-- Settles O19: `VX` is the byte drawn under the mask, whichever byte it is. -/
theorem randomByteUnderMask : Obligations.RandomByteUnderMask := by
  intro x nn s
  have hVX : (s.drawn.writeV x (s.randomByte &&& nn)).advance.readV x = s.randomByte &&& nn := readV_writeV_same
  refine ⟨encodedAs_encode (.rnd x nn), _, rfl, fun r rest hrnd => ⟨?_, ?_⟩, ?_, rfl, rfl,
    exec_onlyWrites rfl rfl fun _ => ⟨nofun, nofun⟩⟩
  · rw [hVX, randomByte_of_cons hrnd]
  · exact congrArg List.tail hrnd
  · rw [hVX, BitVec.and_assoc, BitVec.and_self]

end Sys2Proof.Machine

/-! ## Index register and memory (R160 to R166)

A store or a load checks its whole range first (R64); its last address decides between one known state and trap entry. -/

namespace Sys2Proof.Machine

variable {i : Instr} {s t : State}

/-! ### The index register: two loads and a sum -/

/-- Settles O21: one write to `I`, as a number the immediate or five times the low digit; the frames are what is left. -/
theorem indexLoads : Obligations.IndexLoads := by
  intro nnn x s
  have hglyph : (glyphAddress (lowNibble (s.readV x))).toNat = 5 * ((s.readV x).toNat % 16) := by
    rw [toNat_glyphAddress, toNat_lowNibble]
  refine ⟨⟨encodedAs_encode (.ldI nnn), _, rfl, toNat_addressOf nnn, rfl, ?_⟩,
    ⟨encodedAs_encode (.ldF x), _, rfl, hglyph, rfl, ?_⟩⟩
  all_goals exact exec_onlyWrites rfl rfl fun _ => ⟨nofun, nofun⟩

/-- Settles O22: the flag is computed from `I` and `VX` as numbers, before the sum wraps. -/
theorem addToIndexFlagsRange : Obligations.AddToIndexFlagsRange := by
  intro x s
  have hsum : (s.i + zext16 (s.readV x)).toNat = (s.i.toNat + (s.readV x).toNat) % 65536 := by
    rw [BitVec.toNat_add, toNat_zext16]
  exact ⟨encodedAs_encode (.addI x), _, rfl, hsum, readV_writeFlag_vf.trans (indexFlag_eq s.i _), rfl,
    exec_onlyWrites rfl rfl fun _ => ⟨nofun, nofun⟩⟩

/-! ### Stores: what the bytes read as, and the frame -/

/-- Every instruction that completes keeps the frame of R23 where memory is canonical, the stores included. -/
theorem exec_onlyWrites_of_wf (h : exec i s = .next t) (hr : raises i s = none) (hwf : Memory.wf s.mem) :
    OnlyWrites i s t := fun _ hl => exec_same h hr (fun _ _ => hwf) hl

/-- After a run of writes inside `MEM`, the byte at `a + k` is the `k`-th written. -/
theorem read_writeBytes_add {m : Memory} {a k : Nat} {xs : List Byte} (hwf : Memory.wf m)
    (hx : a + xs.length ≤ memSize) (hk : k < xs.length) : (m.writeBytes a xs).read (a + k) = xs[k] := by
  rw [Memory.read_writeBytes hwf hx, if_pos (by omega), Nat.add_sub_cancel_left]
  exact List.getD_eq_getElem _ _ hk

/-- A number below 256 survives being held in a byte. -/
theorem toNat_byte_ofNat {n : Nat} (h : n < 256) : (BitVec.ofNat 8 n).toNat = n := by
  rw [BitVec.toNat_ofNat, Nat.mod_eq_of_lt h]

/-- Settles O23: inside `MEM` the three digits are the bytes written, each below 256; outside, R216 holds. -/
theorem decimalDigitsStored : Obligations.DecimalDigitsStored := by
  refine fun x s hwf => ⟨encodedAs_encode (.ldB x), fun hin => ?_,
    fun hout => exec_traps (c := .memoryOutOfBounds) (if_pos hout)⟩
  have hr : raises (.ldB x) s = none := if_neg (Nat.not_lt.mpr hin)
  have hstore : exec (.ldB x) s = _ := execLdB_ok hr
  have hfit : s.i.toNat + 3 ≤ memSize := Nat.succ_le_succ hin
  have hdigit (k : Nat) (hk : k < 3) : (s.mem.writeBytes s.i.toNat (decimalDigits (s.readV x))).read (s.i.toNat + k) =
      (decimalDigits (s.readV x))[k]'hk := read_writeBytes_add hwf hfit hk
  have hbyte := (s.readV x).isLt
  refine ⟨_, hstore, ?_, ?_, ?_, rfl, exec_onlyWrites_of_wf hstore hr hwf⟩
  · exact (congrArg _ (hdigit 0 (by decide))).trans (toNat_byte_ofNat (by omega))
  · exact (congrArg _ (hdigit 1 (by decide))).trans (toNat_byte_ofNat (by omega))
  · exact (congrArg _ (hdigit 2 (by decide))).trans (toNat_byte_ofNat (by omega))

/-- Settles O24: inside `MEM` the byte at `I + k` is `Vk` (`read_writeBytes_regRange`); outside, R216 holds. -/
theorem registersStored : Obligations.RegistersStored := by
  refine fun x s hwf => ⟨encodedAs_encode (.stRegs x), fun hin => ?_,
    fun hout => exec_traps (c := .memoryOutOfBounds) (if_pos hout)⟩
  have hr : raises (.stRegs x) s = none := if_neg (Nat.not_lt.mpr hin)
  have hstore : exec (.stRegs x) s = _ := execStRegs_ok hr
  have hfit : s.i.toNat + (x.toNat + 1) ≤ memSize := Nat.succ_le_succ hin
  exact ⟨_, hstore, fun k hk => read_writeBytes_regRange hwf hfit hk, rfl, exec_onlyWrites_of_wf hstore hr hwf⟩

/-! ### The load of registers -/

/-- Loading the `n` bytes at `a` into `V0` up leaves in `Vk` the byte at `a + k`. -/
theorem readV_writeRegs_readBytes {k : Nibble} {a n : Nat} (s : State) (hn : n ≤ 16) (hk : k.toNat < n) :
    (s.writeRegs 0 (s.mem.readBytes a n)).readV k = s.mem.read (a + k.toNat) := by
  have hlen : (s.mem.readBytes a n).length = n := Memory.length_readBytes s.mem a n
  rw [writeRegs_readV _ _ _ (by omega), if_pos (by omega), Nat.sub_zero, List.getD_eq_getElem _ _ (by omega),
    Memory.getElem_readBytes]

/-- Settles O25: inside `MEM` register `Vk` takes the byte at `I + k`; outside, R216 holds. A load keeps memory as data,
so its frame needs no canonical memory. -/
theorem registersLoaded : Obligations.RegistersLoaded := by
  refine fun x s => ⟨encodedAs_encode (.ldRegs x), fun hin => ?_,
    fun hout => exec_traps (c := .memoryOutOfBounds) (if_pos hout)⟩
  have hr : raises (.ldRegs x) s = none := if_neg (Nat.not_lt.mpr hin)
  have hload : exec (.ldRegs x) s = _ := execLdRegs_ok hr
  exact ⟨_, hload, fun k hk => readV_writeRegs_readBytes s x.isLt (Nat.lt_succ_of_le hk),
    congrArg (· + 2#16) (writeRegs_pc s 0 _),
    exec_onlyWrites hload hr fun _ => ⟨nofun, nofun⟩⟩

end Sys2Proof.Machine

/-! ## Display (R180 to R182)

A sprite's bits land on distinct pixels, so drawing it flips each pixel under a 1 bit once, and drawing it again flips
them back. -/

namespace Sys2Proof.Machine

variable {s : State} {x y n : Nibble}

/-! ### The pixels of a sprite are distinct (R182) -/

/-- Within one grid of 64 columns and 32 rows, offsets from a common corner that reach the same pixel are equal. -/
theorem fbIndex_add_inj {vx vy r c r' c' : Nat} (hr : r < 32) (hc : c < 64) (hr' : r' < 32) (hc' : c' < 64)
    (h : fbIndex (vx + c) (vy + r) = fbIndex (vx + c') (vy + r')) : r = r' ∧ c = c' := by
  unfold fbIndex at h
  have hcol : (vx + c) % 64 = (vx + c') % 64 := by omega
  have hrow : (vy + r) % 32 = (vy + r') % 32 := by omega
  omega

/-- Settles O31: a sprite of 8 columns and 15 rows fits in the grid. -/
theorem spriteBitsNeverCoincide : Obligations.SpriteBitsNeverCoincide :=
  fun _ _ _ _ _ _ hr hc hr' hc' h => fbIndex_add_inj (by omega) (by omega) (by omega) (by omega) h

theorem nodup_rowPixels (x y : Nat) (row : Byte) : (rowPixels x y row).Nodup := by
  refine List.Nodup.map_on (fun c hc c' hc' h => ?_) (List.nodup_range.filter _)
  have hlt := List.mem_range.mp (List.mem_of_mem_filter hc)
  have hlt' := List.mem_range.mp (List.mem_of_mem_filter hc')
  exact (fbIndex_add_inj (vy := y) (r := 0) (r' := 0) (by omega) (by omega) (by omega) (by omega) h).2

theorem nodup_spritePixels (x y : Nat) (rows : List Byte) (hlen : rows.length ≤ 32) :
    (spritePixels x y rows).Nodup := by
  induction rows generalizing y with
  | nil => exact List.nodup_nil
  | cons row rest ih =>
    rw [List.length_cons] at hlen
    refine (nodup_rowPixels x y row).append (ih (y + 1) (by omega)) fun k hrow hrest => ?_
    obtain ⟨c, hc, -, rfl⟩ := (mem_rowPixels x y row k).mp hrow
    obtain ⟨r', c', hr', hc', -, h⟩ := (mem_spritePixels x (y + 1) rest _).mp hrest
    rw [Nat.add_assoc, ← Nat.add_zero y, Nat.add_assoc] at h
    have hrows := (fbIndex_add_inj (by omega) (by omega) (by omega) (by omega) h).1
    omega

theorem nodup_spriteOf (s : State) (x y n : Nibble) : (s.spriteOf x y n).Nodup :=
  nodup_spritePixels _ _ _ (by rw [Memory.length_readBytes]; omega)

/-- The pixel at offset `(r, c)` is drawn exactly when the sprite's bit there is 1. -/
theorem fbIndex_mem_spriteOf {r c : Nat} (hr : r < n.toNat) (hc : c < 8) :
    fbIndex ((s.readV x).toNat + c) ((s.readV y).toNat + r) ∈ s.spriteOf x y n ↔
      (s.mem.read (s.i.toNat + r)).getLsbD (7 - c) = true := by
  rw [mem_spriteOf]
  refine ⟨fun ⟨r', c', hr', hc', hbit, h⟩ => ?_, fun hbit => ⟨r, c, hr, hc, hbit, rfl⟩⟩
  obtain ⟨rfl, rfl⟩ := fbIndex_add_inj (by omega) (by omega) (by omega) (by omega) h
  exact hbit

/-! ### The state after a sprite is drawn (R181) -/

/-- What DXYN makes of a state in which it completes. -/
def State.withSprite (s : State) (x y n : Nibble) : State :=
  ((s.showFb ((s.spriteOf x y n).foldl flipPixel s.fb)).writeFlag (collisionFlag s.fb (s.spriteOf x y n))).advance

theorem exec_drw_withSprite (hr : raises (.drw x y n) s = none) :
    exec (.drw x y n) s = .next (s.withSprite x y n) := execDrw_ok hr

theorem withSprite_readV {z : Nibble} (h : z ≠ vf) : (s.withSprite x y n).readV z = s.readV z :=
  (writeFlag_readV _ _ z).trans (if_neg h)

theorem withSprite_readV_vf : (s.withSprite x y n).readV vf = collisionFlag s.fb (s.spriteOf x y n) :=
  readV_writeFlag_vf

/-- Drawing flips the pixels of the sprite and no other. -/
theorem lit_withSprite (k : Nat) : lit (s.withSprite x y n).fb k = (lit s.fb k ^^ decide (k ∈ s.spriteOf x y n)) :=
  lit_foldl_flipPixel _ (spritePixels_lt _ _ _) (nodup_spriteOf s x y n) s.fb k

/-- Under the sprite's bit at offset `(r, c)`, drawing is the xor with that bit. -/
theorem lit_withSprite_fbIndex {r c : Nat} (hr : r < n.toNat) (hc : c < 8) :
    lit (s.withSprite x y n).fb (fbIndex ((s.readV x).toNat + c) ((s.readV y).toNat + r)) =
      (lit s.fb (fbIndex ((s.readV x).toNat + c) ((s.readV y).toNat + r)) ^^
        (s.mem.read (s.i.toNat + r)).getLsbD (7 - c)) := by
  rw [lit_withSprite]
  simp only [fbIndex_mem_spriteOf hr hc, Bool.decide_eq_true]

/-! ### The collision flag -/

theorem flagByte_zero_or_one (b : Bool) : flagByte b = 0x00#8 ∨ flagByte b = 0x01#8 := by
  cases b <;> decide

theorem flagByte_eq_one_iff (b : Bool) : flagByte b = 0x01#8 ↔ b = true := by
  cases b <;> decide

/-- VF is 1 exactly when a 1 bit of the sprite met a lit pixel. -/
theorem withSprite_collides_iff : (s.withSprite x y n).readV vf = 0x01#8 ↔
    ∃ r c, r < n.toNat ∧ c < 8 ∧ (s.mem.read (s.i.toNat + r)).getLsbD (7 - c) = true ∧
      lit s.fb (fbIndex ((s.readV x).toNat + c) ((s.readV y).toNat + r)) = true := by
  rw [withSprite_readV_vf, collisionFlag, flagByte_eq_one_iff, List.any_eq_true]
  constructor
  · rintro ⟨k, hk, hlit⟩
    obtain ⟨r, c, hr, hc, hbit, rfl⟩ := (mem_spriteOf s x y n k).mp hk
    exact ⟨r, c, hr, hc, hbit, hlit⟩
  · rintro ⟨r, c, hr, hc, hbit, hlit⟩
    exact ⟨_, (fbIndex_mem_spriteOf hr hc).mpr hbit, hlit⟩

/-! ### Clearing and drawing -/

/-- Settles O28: the framebuffer becomes 0. -/
theorem clearScreenRequestsFrame : Obligations.ClearScreenRequestsFrame := fun _ =>
  ⟨encodedAs_encode .cls, _, rfl, fun _ => BitVec.getLsbD_zero, rfl, rfl,
    exec_onlyWrites rfl rfl fun _ => ⟨nofun, nofun⟩⟩

/-- With no row, or with the last row inside `MEM`, DXYN raises nothing (R216). -/
theorem raises_drw_none (h : n = 0x0#4 ∨ s.i.toNat + n.toNat - 1 ≤ 0xFFF) : raises (.drw x y n) s = none := by
  refine if_neg fun ⟨hpos, hout⟩ => ?_
  rcases h with rfl | hin
  · exact absurd hpos (by decide)
  · exact absurd hin (Nat.not_le.mpr hout)

/-- With a row above `MEM`, DXYN raises (R216). -/
theorem raises_drw_some (hn : n ≠ 0x0#4) (h : s.i.toNat + n.toNat - 1 > 0xFFF) :
    raises (.drw x y n) s = some .memoryOutOfBounds := by
  have hpos : 0 < n.toNat := Nat.pos_of_ne_zero fun e => hn (BitVec.eq_of_toNat_eq e)
  exact if_pos ⟨hpos, h⟩

/-- Settles O29: inside `MEM` each pixel is flipped by its own bit (`lit_withSprite_fbIndex`) and VF is the collision
flag; outside, R216 holds. -/
theorem spriteDrawnByXor : Obligations.SpriteDrawnByXor := by
  refine fun x y n s => ⟨encodedAs_encode (.drw x y n), fun hin => ?_,
    fun ⟨hn, hout⟩ => exec_traps (raises_drw_some hn hout)⟩
  have hr : raises (.drw x y n) s = none := raises_drw_none hin
  have hdraw := exec_drw_withSprite hr
  have hflag : (s.withSprite x y n).readV vf = 0x00#8 ∨ (s.withSprite x y n).readV vf = 0x01#8 := by
    rw [withSprite_readV_vf]
    exact flagByte_zero_or_one _
  exact ⟨_, hdraw, fun r c => lit_withSprite_fbIndex, hflag, withSprite_collides_iff, rfl, rfl,
    exec_onlyWrites hdraw hr fun _ => ⟨nofun, nofun⟩⟩

/-! ### Drawing twice -/

/-- A drawing that does not move its own corner leaves the same sprite to be drawn. -/
theorem spriteOf_withSprite (hx : x ≠ vf) (hy : y ≠ vf) : (s.withSprite x y n).spriteOf x y n = s.spriteOf x y n := by
  rw [State.spriteOf, withSprite_readV hx, withSprite_readV hy]
  rfl

/-- Framebuffers with the same lit pixels are equal. -/
theorem frame_eq_of_lit_eq {fb fb' : Frame} (h : ∀ k, lit fb k = lit fb' k) : fb = fb' :=
  BitVec.eq_of_getLsbD_eq fun k _ => h k

/-- Flipping the pixels of the sprite again restores them. -/
theorem withSprite_withSprite_fb (hx : x ≠ vf) (hy : y ≠ vf) :
    ((s.withSprite x y n).withSprite x y n).fb = s.fb := by
  refine frame_eq_of_lit_eq fun k => ?_
  rw [lit_withSprite, spriteOf_withSprite hx hy, lit_withSprite, Bool.xor_assoc, Bool.xor_self, Bool.xor_false]

/-- Settles O30: under a 1 bit the first drawing leaves the opposite of what was there, so the second meets a lit pixel
where the first met an unlit one. -/
theorem drawingTwiceRestores : Obligations.DrawingTwiceRestores := by
  intro x y n s t hx hy h hrun
  have hr : raises (.drw x y n) s = none := raises_eq_none_of_run h hrun
  obtain rfl : t = s.withSprite x y n := exec_drw_completed h hr
  have hagain : raises (.drw x y n) (s.withSprite x y n) = none := hr
  refine ⟨_, exec_drw_withSprite hagain, withSprite_withSprite_fb hx hy, withSprite_collides_iff.trans ?_⟩
  refine exists_congr fun r => exists_congr fun c => and_congr_right fun hrow => and_congr_right fun hcol =>
    and_congr_right fun hbit => ?_
  have hbit' : (s.mem.read (s.i.toNat + r)).getLsbD (7 - c) = true := hbit
  rw [withSprite_readV hx, withSprite_readV hy, lit_withSprite_fbIndex hrow hcol, hbit', Bool.xor_true,
    Bool.not_eq_true']

end Sys2Proof.Machine

/-! ## Keypad (R190 to R194)

A key test leaves its key released, so it sees a press once; a core that waits for a key resumes on a press. -/

namespace Sys2Proof.Machine

variable {s : State} {k x : Nibble} {l : Loc}

/-! ### What one operation of the keys or the timers leaves unchanged -/

/-- A changed key table is seen at the keys in which it differs. -/
theorem same_writeKeys (s : State) (keys : BitVec 16) (hk : ∀ j, l = .key j → keyDown keys j = keyDown s.keys j) :
    l.same s (s.writeKeys keys) := by
  cases l with
  | key j => exact hk j rfl
  | _ => rfl

theorem same_writeKeys_keySet (s : State) (h : l ≠ .key k) : l.same s (s.writeKeys (keySet s.keys k)) :=
  same_writeKeys s _ fun j hj => (keyDown_keySet s.keys j k).trans (if_neg fun e => h (by rw [hj, e]))

theorem same_release (s : State) (h : l ≠ .key k) : l.same s (s.release k) :=
  same_writeKeys s _ fun j hj => (keyDown_keyClear s.keys j k).trans (if_neg fun e => h (by rw [hj, e]))

theorem same_decTimers (s : State) (hdt : l ≠ .dt) (hst : l ≠ .st) : l.same s s.decTimers :=
  (same_writeDt s _ hdt).trans (same_writeSt _ _ hst)

/-- The completion of FX0A writes the register named by `IR`, `PC` and `RUN` (R193). -/
theorem same_completeKeyWait (s : State) (k : Nibble) (hv : l ≠ .v (xField s.ir)) (hpc : l ≠ .pc) (hrun : l ≠ .run) :
    l.same s (s.completeKeyWait k) :=
  ((same_writeV s _ hv).trans (same_advance _ hpc)).trans (same_writeRun _ _ hrun)

/-! ### The events where they are enabled -/

theorem press_of_awaitKey (h : s.run = .awaitKey) : s.press k = (s.writeKeys (keySet s.keys k)).completeKeyWait k :=
  if_pos h

theorem timerTick_of_ne_halted (h : s.run ≠ .halted) : s.timerTick = s.decTimers := if_neg h

theorem stop_of_ne_halted (h : s.run ≠ .halted) : s.stop = s.writeRun .halted := if_neg h

/-- A core that does not run takes no step of its own (R210; log entry 8). -/
theorem instructionStep_of_ne_running (h : s.run ≠ .running) : instructionStep s = .next s := if_neg h

theorem keyDown_press_same (s : State) (k : Nibble) : keyDown (s.press k).keys k = true := by
  rw [press_keys, keyDown_keySet, if_pos rfl]

theorem keyDown_release_same (s : State) (k : Nibble) : keyDown (s.release k).keys k = false :=
  (keyDown_keyClear s.keys k k).trans (if_pos rfl)

/-! ### The key tests -/

theorem keyDown_consumeKey_same (s : State) (k : Nibble) : keyDown (s.consumeKey k).keys k = false :=
  (keyDown_consumeKey s k k).trans (if_pos rfl)

/-- A key test that sees no press changes no key. -/
theorem consumeKey_of_released (h : keyDown s.keys k = false) : s.consumeKey k = s := if_neg (ne_true_of_eq_false h)

theorem consumeKey_skipIf_pc (s : State) (k : Nibble) (c : Prop) [Decidable c] :
    ((s.consumeKey k).skipIf c).pc = if c then s.pc + 4#16 else s.pc + 2#16 := by
  rw [skipIf_pc, consumeKey_pc]

theorem keyDown_consumeKey_skipIf_same (s : State) (k : Nibble) (c : Prop) [Decidable c] :
    keyDown ((s.consumeKey k).skipIf c).keys k = false := by
  rw [skipIf_keys, keyDown_consumeKey_same]

/-- EX9E on a released key moves on to the next instruction and does nothing else (R190). -/
theorem exec_skp_of_released (h : keyDown s.keys (lowNibble (s.readV x)) = false) :
    exec (.skp x) s = .next s.advance := by
  rw [exec, execSkp, consumeKey_of_released h, State.skipIf, if_neg (ne_true_of_eq_false h)]

/-- Settles O32: the low four bits of `VX` as a number are its low nibble (`lowNibble_eq`); the test releases that key
and skips on its press. -/
theorem skipIfPressedConsumes : Obligations.SkipIfPressedConsumes := by
  intro x s
  rw [← lowNibble_eq]
  exact ⟨encodedAs_encode (.skp x), _, rfl, consumeKey_skipIf_pc s _ _, keyDown_consumeKey_skipIf_same s _ _,
    exec_onlyWrites rfl rfl fun _ => ⟨nofun, nofun⟩⟩

/-- Settles O33: as for EX9E, with the skip on the negated condition. -/
theorem skipIfNotPressedConsumes : Obligations.SkipIfNotPressedConsumes := by
  intro x s
  rw [← lowNibble_eq]
  refine ⟨encodedAs_encode (.sknp x), _, rfl, ?_, keyDown_consumeKey_skipIf_same s _ _,
    exec_onlyWrites rfl rfl fun _ => ⟨nofun, nofun⟩⟩
  rw [consumeKey_skipIf_pc]
  cases keyDown s.keys (lowNibble (s.readV x)) <;> rfl

/-- Settles O37: the first test leaves the key released and `VX` as it was, so the second sees no press. -/
theorem keyTestIsOneShot : Obligations.KeyTestIsOneShot := by
  intro x s t h
  have hreleased : keyDown t.keys (lowNibble (t.readV x)) = false := by
    cases h
    rw [skipIf_readV, consumeKey_readV, keyDown_consumeKey_skipIf_same]
  exact ⟨t.advance, exec_skp_of_released hreleased, rfl, rfl⟩

/-! ### Waiting for a key -/

/-- Settles O34. -/
theorem keyWaitEntered : Obligations.KeyWaitEntered := fun x s =>
  ⟨encodedAs_encode (.ldVxK x), s.writeRun .awaitKey, rfl, rfl, exec_onlyWrites rfl rfl fun _ => ⟨nofun, nofun⟩⟩

/-- The register that `IR` names takes the code of the pressed key (R193). -/
theorem toNat_completeKeyWait_readV (s : State) (k : Nibble) :
    ((s.completeKeyWait k).readV (xField s.ir)).toNat = k.toNat := by
  rw [State.completeKeyWait, writeRun_readV, advance_readV, readV_writeV_same, toNat_keyByte]

/-- Settles O35: a press marks its key and completes the wait. -/
theorem pressCompletesTheWait : Obligations.PressCompletesTheWait := by
  intro k s hwait
  have hpress : s.press k = (s.writeKeys (keySet s.keys k)).completeKeyWait k := press_of_awaitKey hwait
  refine ⟨s.press k, rfl, ?_, keyDown_press_same s k, ?_, ?_, fun l hv hkey hpc hrun => ?_⟩ <;> rw [hpress]
  · exact toNat_completeKeyWait_readV (s.writeKeys _) k
  · rfl
  · rfl
  · exact (same_writeKeys_keySet s hkey).trans (same_completeKeyWait _ k hv hpc hrun)

/-- Settles O36: a waiting core neither runs nor has halted, so its own step is not enabled, and tick and stop are. -/
theorem waitingCoreOnlyListens : Obligations.WaitingCoreOnlyListens := by
  intro s hwait
  have hidle : s.run ≠ .running := by simp [hwait]
  have hlive : s.run ≠ .halted := by simp [hwait]
  exact ⟨instructionStep_of_ne_running hidle,
    fun k => ⟨s.release k, rfl, keyDown_release_same s k, fun l hl => same_release s hl⟩,
    ⟨s.decTimers, congrArg Host.Outcome.next (timerTick_of_ne_halted hlive), toNat_decrement s.dt, toNat_decrement s.st,
      fun l hdt hst => same_decTimers s hdt hst⟩,
    ⟨s.writeRun .halted, congrArg Host.Outcome.next (stop_of_ne_halted hlive), rfl, fun l hl => same_writeRun s _ hl⟩⟩

end Sys2Proof.Machine

/-! ## Timers (R200 to R202, R225)

FX15 alone sets the delay timer to a value of the program's; every other step keeps it, counts it down or clears it. -/

namespace Sys2Proof.Machine

variable {i : Instr} {s t : State}

/-! ### The three timer instructions -/

/-- Settles O38: one write, to `VX` or to a timer; the frames are what is left. -/
theorem timerRegistersCopied : Obligations.TimerRegistersCopied := by
  intro x s
  refine ⟨⟨encodedAs_encode (.ldVxDt x), _, rfl, readV_writeV_same, rfl, ?_⟩,
    ⟨encodedAs_encode (.ldDtVx x), _, rfl, writeDt_dt s _, rfl, ?_⟩,
    ⟨encodedAs_encode (.ldStVx x), _, rfl, writeSt_st s _, rfl, ?_⟩⟩
  all_goals exact exec_onlyWrites rfl rfl fun _ => ⟨nofun, nofun⟩

/-! ### What reaches the delay timer -/

/-- R23 lists the delay timer for FX15 only, and trap entry keeps it. -/
theorem exec_dt_changes (h : exec i s = .next t) (hne : t.dt ≠ s.dt) : ∃ x, i = .ldDtVx x := by
  have hw : mayWrite i s .dt := mayWrite_of_not_same h hne nofun fun _ _ => rfl
  cases i
  case ldDtVx x => exact ⟨x, rfl⟩
  all_goals simp [mayWrite] at hw

theorem timerTick_dt_le (s : State) : s.timerTick.dt.toNat ≤ s.dt.toNat := by
  unfold State.timerTick
  split
  · exact le_rfl
  · rw [decTimers_dt, toNat_decrement]
    exact Nat.sub_le _ _

@[simp] theorem press_dt (s : State) (k : Nibble) : (s.press k).dt = s.dt := by unfold State.press; split <;> rfl
@[simp] theorem stop_dt (s : State) : s.stop.dt = s.dt := by unfold State.stop; split <;> rfl

/-- A step executes an instruction, or it does not raise the delay timer: a tick lowers it, a reset clears it (R45), and
every other step keeps it. -/
theorem step_executes_or_dt_le (h : step s = .next t) :
    (∃ w i u, s.executes w i ∧ exec i (s.fetched w) = .next u ∧ t = u.finish) ∨ t.dt.toNat ≤ s.dt.toNat := by
  rcases step_cases h with ⟨hnext, hcore⟩ | ⟨rest, -, rfl⟩ | ⟨k, rest, -, rfl⟩ | ⟨k, rest, -, rfl⟩ |
    ⟨rest, -, rfl⟩ | ⟨rom, rest, -, -, rfl⟩
  · rcases instructionStep_cases hcore with ⟨-, rfl⟩ | ⟨-, -, rfl⟩ | ⟨w, e, -, -, -, rfl⟩ |
      ⟨w, i, u, hrun, hf, hd, hu, rfl⟩
    · exact .inr le_rfl
    · exact .inr le_rfl
    · exact .inr le_rfl
    · exact .inl ⟨w, i, u, ⟨hrun, hnext, hf, hd⟩, hu, rfl⟩
  · exact .inr (timerTick_dt_le { s with schedule := rest })
  · exact .inr (congrArg BitVec.toNat (press_dt _ k)).le
  · exact .inr le_rfl
  · exact .inr (congrArg BitVec.toNat (stop_dt _)).le
  · exact .inr (Nat.zero_le _)

/-- Settles O41: a step that raises the delay timer executes an instruction, and that instruction changes it. -/
theorem delayTimerNeverRises : Obligations.DelayTimerNeverRises := by
  intro s t h hlt
  rcases step_executes_or_dt_le h with ⟨w, i, u, hx, hu, rfl⟩ | hle
  · rw [finish_dt] at hlt
    have hne : u.dt ≠ (s.fetched w).dt := fun e => hlt.ne' (congrArg BitVec.toNat e)
    obtain ⟨x, rfl⟩ := exec_dt_changes hu hne
    exact ⟨w, x, hx⟩
  · exact absurd hle (Nat.not_le.mpr hlt)

end Sys2Proof.Machine

/-! ## Faults, the sequencer and the other agents (R210 to R244)

The core executes what it fetches and shows one frame for a display instruction; the other agents change a key, the
timers or `RUN`. -/

namespace Sys2Proof.Machine

variable {i : Instr} {s t : State} {w : Word} {k : Nibble} {l : Loc}

/-! ### Trap entry (R216, R217) -/

/-- Settles O42: an instruction that raises answers the state of trap entry (`exec_traps`). -/
theorem trapEntryLatchesAndHalts : Obligations.TrapEntryLatchesAndHalts := fun _ _ _ hr => exec_traps hr

/-! ### The steps of the other agents, enabled or not (R222 to R228) -/

/-- Settles O39: a tick that is enabled is one decrement of each timer. -/
theorem timerTickDecrementsBoth : Obligations.TimerTickDecrementsBoth := fun s hlive =>
  ⟨s.decTimers, congrArg Host.Outcome.next (timerTick_of_ne_halted hlive), toNat_decrement s.dt, toNat_decrement s.st,
    fun _ hdt hst => same_decTimers s hdt hst⟩

theorem timerTick_of_halted (h : s.run = .halted) : s.timerTick = s := if_pos h

theorem stop_of_halted (h : s.run = .halted) : s.stop = s := if_pos h

theorem press_of_ne_awaitKey (h : s.run ≠ .awaitKey) : s.press k = s.writeKeys (keySet s.keys k) := if_neg h

theorem same_press (h : s.run ≠ .awaitKey) (hl : l ≠ .key k) : l.same s (s.press k) := by
  rw [press_of_ne_awaitKey h]
  exact same_writeKeys_keySet s hl

/-- In a halted core the stop is not enabled, and `RUN` already is what it would write. -/
theorem stop_eq_writeRun (s : State) : s.stop = s.writeRun .halted := by
  by_cases h : s.run = .halted
  · rw [stop_of_halted h, State.writeRun, ← h]
  · exact stop_of_ne_halted h

/-- Settles O50: in every state a stop is the one write to `RUN`. -/
theorem stopHaltsWithNoCause : Obligations.StopHaltsWithNoCause := fun s =>
  ⟨s.writeRun .halted, congrArg Host.Outcome.next (stop_eq_writeRun s), rfl, rfl, fun _ hl => same_writeRun s _ hl⟩

/-- Settles O51: off the wait a press is the one write to the key table, as a release is in every state. -/
theorem keyEventsChangeOneKey : Obligations.KeyEventsChangeOneKey := fun k s =>
  ⟨fun hrun => ⟨s.press k, rfl, keyDown_press_same s k, fun _ hl => same_press hrun hl⟩,
    fun hwait => congrArg Host.Outcome.next (press_of_awaitKey hwait),
    ⟨s.release k, rfl, keyDown_release_same s k, fun _ hl => same_release s hl⟩⟩

/-- Settles O53, agent by agent: in `Halted` the core's step, a tick and a stop are not enabled, and a press finds no
wait to complete. -/
theorem haltedIsTerminal : Obligations.HaltedIsTerminal := by
  intro e s hhalted hreset
  have hidle : s.run ≠ .running := by simp [hhalted]
  have hnowait : s.run ≠ .awaitKey := by simp [hhalted]
  have hself (l : Loc) : l.same s s := by cases l <;> rfl
  cases e with
  | instruction => exact ⟨s, instructionStep_of_ne_running hidle, fun l _ => hself l⟩
  | timerTick => exact ⟨s, congrArg Host.Outcome.next (timerTick_of_halted hhalted), fun l _ => hself l⟩
  | press k => exact ⟨s.press k, rfl, fun l hl => same_press hnowait (hl k (.inl rfl))⟩
  | release k => exact ⟨s.release k, rfl, fun l hl => same_release s (hl k (.inr rfl))⟩
  | stop => exact ⟨s, congrArg Host.Outcome.next (stop_of_halted hhalted), fun l _ => hself l⟩
  | reset rom => exact absurd rfl (hreset rom)

/-! ### The schedule -/

@[simp] theorem timerTick_schedule (s : State) : s.timerTick.schedule = s.schedule := by
  unfold State.timerTick; split <;> rfl
@[simp] theorem press_schedule (s : State) (k : Nibble) : (s.press k).schedule = s.schedule := by
  unfold State.press; split <;> rfl
@[simp] theorem stop_schedule (s : State) : s.stop.schedule = s.schedule := by rw [stop_eq_writeRun]; rfl

theorem exec_schedule (h : exec i s = .next t) : t.schedule = s.schedule := by
  rcases exec_cases h with ⟨c, -, rfl⟩ | ⟨-, hschedule, -⟩
  · rfl
  · exact hschedule

theorem instructionStep_schedule (h : instructionStep s = .next t) : t.schedule = s.schedule := by
  rcases instructionStep_cases h with ⟨-, rfl⟩ | ⟨-, -, rfl⟩ | ⟨w, e, -, -, -, rfl⟩ | ⟨w, i, u, -, -, -, hu, rfl⟩
  · rfl
  · rfl
  · rfl
  · exact (finish_schedule u).trans (exec_schedule (s := s.writeIr w) hu)

/-- No machine step looks at the steps behind it, or changes them (R211). -/
theorem machineStep_schedule {e : MachineStep} (h : machineStep e s = .next t) : t.schedule = s.schedule := by
  cases e with
  | instruction => exact instructionStep_schedule h
  | timerTick => cases h; exact timerTick_schedule s
  | press k => cases h; exact press_schedule s k
  | release k => cases h; rfl
  | stop => cases h; exact stop_schedule s
  | reset rom =>
    simp only [machineStep, State.resetWith] at h
    split at h <;> cases h
    rfl

/-- Settles O48: the first scheduled step is taken (`step_cons`), and keeps the schedule behind it. -/
theorem scheduledStepsRunInOrder : Obligations.ScheduledStepsRunInOrder := by
  intro e rest s hs
  have hstep := step_cons hs
  refine ⟨hstep, ?_, fun t ht => machineStep_schedule (hstep.symm.trans ht)⟩
  rintro rfl hidle
  exact hstep.trans (instructionStep_of_ne_running hidle)

/-! ### The core's step, and its end -/

/-- The step of a state that executes an instruction, whatever the instruction answers (R210). -/
theorem step_eq_executeAndRender (hx : s.executes w i) : step s = executeAndRender i (s.fetched w) := by
  obtain ⟨hrun, hnext, hf, hd⟩ := hx
  have hf' : State.fetch { s with schedule := s.schedule.tail } = some w := hf
  rw [step_coreNext hnext, instructionStep, if_pos hrun, hf']
  simp only [runWord, hd]
  rfl

theorem decodeWord_of_decode {hi lo : Byte} {rest rest' : List Byte} (h : decode (hi :: lo :: rest) = .ok (i, rest')) :
    decodeWord (hi ++ lo) = .ok i := by
  simp only [decode] at h
  split at h <;> cases h
  next hd => exact hd

/-- Settles O47: the two bytes at `PC` are the word fetched, and decode to the instruction executed. -/
theorem stepRunsDecodedInstruction : Obligations.StepRunsDecodedInstruction := by
  intro i s hrun hnext hpc _ hdecode
  exact step_eq_executeAndRender ⟨hrun, hnext, fetch_of_le hpc, decodeWord_of_decode hdecode⟩

theorem finish_of_redraw_false (h : s.redraw = false) : s.finish = s := by
  simp [State.finish, State.render, h]

theorem finish_frames (hlive : s.run ≠ .halted) (h : s.redraw = true) : s.finish.frames = s.frames ++ [s.fb] := by
  simp [State.finish, State.render, hlive, h]

/-- Settles O54: the state executes the jump, whose target is the `PC` it has, and no frame is due. -/
theorem selfJumpIsTheEnd : Obligations.SelfJumpIsTheEnd := by
  intro a s hend hnext hredraw
  obtain ⟨hrun, hpc, hf⟩ := hend
  have hx : s.executes (packA 0x1#4 a) (.jp a) := ⟨hrun, hnext, hf, decodeWord_encode (.jp a)⟩
  have hjump : exec (.jp a) (s.fetched (packA 0x1#4 a)) = .next (s.fetched (packA 0x1#4 a)) := by
    rw [exec, execJp, ← hpc]
    rfl
  have hstill : (s.fetched (packA 0x1#4 a)).finish = s.fetched (packA 0x1#4 a) := finish_of_redraw_false hredraw
  rw [step_of_executes hx hjump, hstill]

/-! ### Frames (R232) -/

/-- An instruction only asks for a frame; the end of its step emits it. -/
theorem exec_frames (h : exec i s = .next t) : t.frames = s.frames := by
  rcases exec_cases h with ⟨c, -, rfl⟩ | ⟨-, -, -, hframes, -⟩
  · rfl
  · exact hframes

/-- A display instruction that does not raise completes, and asks for a frame (R35). -/
theorem exec_display_redraw (hi : i = .cls ∨ ∃ x y n, i = .drw x y n) (hr : raises i s = none) :
    ∃ u, exec i s = .next u ∧ u.redraw = true := by
  rcases hi with rfl | ⟨x, y, n, rfl⟩
  · exact ⟨_, rfl, rfl⟩
  · exact ⟨_, exec_drw_withSprite hr, rfl⟩

/-- No other instruction, and no fault, reaches `REDRAW`. -/
theorem exec_redraw_changes (h : exec i s = .next t) (hne : t.redraw ≠ s.redraw) :
    (i = .cls ∨ ∃ x y n, i = .drw x y n) ∧ raises i s = none := by
  have hw : mayWrite i s .redraw := mayWrite_of_not_same h hne nofun fun _ _ => rfl
  have hr : raises i s = none := by
    cases hr : raises i s with
    | none => rfl
    | some c =>
      rw [exec_raises hr] at h
      cases h
      exact absurd rfl hne
  cases i
  case cls => exact ⟨.inl rfl, hr⟩
  case drw x y n => exact ⟨.inr ⟨x, y, n, rfl⟩, hr⟩
  all_goals simp [mayWrite] at hw

@[simp] theorem timerTick_redraw (s : State) : s.timerTick.redraw = s.redraw := by
  unfold State.timerTick; split <;> rfl
@[simp] theorem timerTick_frames (s : State) : s.timerTick.frames = s.frames := by
  unfold State.timerTick; split <;> rfl
@[simp] theorem press_redraw (s : State) (k : Nibble) : (s.press k).redraw = s.redraw := by
  unfold State.press; split <;> rfl
@[simp] theorem press_frames (s : State) (k : Nibble) : (s.press k).frames = s.frames := by
  unfold State.press; split <;> rfl
@[simp] theorem stop_redraw (s : State) : s.stop.redraw = s.redraw := by rw [stop_eq_writeRun]; rfl
@[simp] theorem stop_frames (s : State) : s.stop.frames = s.frames := by rw [stop_eq_writeRun]; rfl

/-- A step executes an instruction, or it emits no frame and asks for none. -/
theorem step_executes_or_keeps_frames (h : step s = .next t) (hredraw : s.redraw = false) :
    (∃ w i u, s.executes w i ∧ exec i (s.fetched w) = .next u ∧ t = u.finish) ∨
    (t.redraw = false ∧ t.frames = s.frames) := by
  rcases step_cases h with ⟨hnext, hcore⟩ | ⟨rest, -, rfl⟩ | ⟨k, rest, -, rfl⟩ | ⟨k, rest, -, rfl⟩ |
    ⟨rest, -, rfl⟩ | ⟨rom, rest, -, -, rfl⟩
  · rcases instructionStep_cases hcore with ⟨-, rfl⟩ | ⟨-, -, rfl⟩ | ⟨w, e, -, -, -, rfl⟩ |
      ⟨w, i, u, hrun, hf, hd, hu, rfl⟩
    · exact .inr ⟨hredraw, rfl⟩
    · exact .inr ⟨hredraw, rfl⟩
    · exact .inr ⟨hredraw, rfl⟩
    · exact .inl ⟨w, i, u, ⟨hrun, hnext, hf, hd⟩, hu, rfl⟩
  · exact .inr ⟨(timerTick_redraw _).trans hredraw, timerTick_frames _⟩
  · exact .inr ⟨(press_redraw _ k).trans hredraw, press_frames _ k⟩
  · exact .inr ⟨hredraw, rfl⟩
  · exact .inr ⟨(stop_redraw _).trans hredraw, stop_frames _⟩
  · exact .inr ⟨rfl, rfl⟩

/-- A step that executes a display instruction without a fault emits one frame. -/
theorem step_emits_frame (hx : s.executes w i) (hi : i = .cls ∨ ∃ x y n, i = .drw x y n) (hr : raises i s = none)
    (h : step s = .next t) : t.redraw = false ∧ t.frames = s.frames ++ [t.fb] := by
  have hr' : raises i (s.fetched w) = none := (raises_fetched i s w).trans hr
  have hrun : (s.fetched w).run = .running := hx.1
  have hlive : (s.fetched w).run ≠ .halted := by simp [hrun]
  obtain ⟨u, hu, hredraw⟩ := exec_display_redraw hi hr'
  rw [step_of_executes hx hu] at h
  cases h
  have hlive' : u.run ≠ .halted := exec_run_ne_halted hu hr' hlive
  refine ⟨finish_redraw hlive', ?_⟩
  rw [finish_frames hlive' hredraw, finish_fb, exec_frames hu]
  rfl

/-- A step that executes no such instruction emits none: what it executes, if anything, leaves `REDRAW` at 0. -/
theorem step_emits_no_frame (hredraw : s.redraw = false)
    (hno : ¬ ∃ w i, s.executes w i ∧ (i = .cls ∨ ∃ x y n, i = .drw x y n) ∧ raises i s = none)
    (h : step s = .next t) : t.redraw = false ∧ t.frames = s.frames := by
  rcases step_executes_or_keeps_frames h hredraw with ⟨w, i, u, hx, hu, rfl⟩ | hkeeps
  · have hsame : u.redraw = (s.fetched w).redraw := by
      by_contra hne
      obtain ⟨hi, hr⟩ := exec_redraw_changes hu hne
      exact hno ⟨w, i, hx, hi, (raises_fetched i s w).symm.trans hr⟩
    have hclear : u.redraw = false := hsame.trans hredraw
    rw [finish_of_redraw_false hclear]
    exact ⟨hclear, exec_frames (s := s.fetched w) hu⟩
  · exact hkeeps

/-- Settles O49: a step either executes a display instruction that completes, or it does not. -/
theorem oneFramePerDisplayInstruction : Obligations.OneFramePerDisplayInstruction := by
  intro s t hredraw h
  by_cases hshow : ∃ w i, s.executes w i ∧ (i = .cls ∨ ∃ x y n, i = .drw x y n) ∧ raises i s = none
  · obtain ⟨w, i, hx, hi, hr⟩ := hshow
    obtain ⟨hclear, hframe⟩ := step_emits_frame hx hi hr h
    exact ⟨hclear, fun _ => hframe, fun hno => absurd ⟨w, i, hx, hi, hr⟩ hno⟩
  · obtain ⟨hclear, hframes⟩ := step_emits_no_frame hredraw hshow h
    exact ⟨hclear, fun hyes => absurd hyes hshow, fun _ => hframes⟩

/-! ### The state machine of `RUN` (R212) -/

theorem TrapCause.code_ne_zero (c : TrapCause) : c.code ≠ 0#3 := by
  cases c <;> decide

@[simp] theorem timerTick_run (s : State) : s.timerTick.run = s.run := by unfold State.timerTick; split <;> rfl

theorem press_run_of_awaitKey (h : s.run = .awaitKey) : (s.press k).run = .running := by
  rw [press_of_awaitKey h]; rfl

theorem press_run_of_ne_awaitKey (h : s.run ≠ .awaitKey) : (s.press k).run = s.run := by
  rw [press_of_ne_awaitKey h]; rfl

theorem stop_run (s : State) : s.stop.run = .halted := by rw [stop_eq_writeRun]; rfl

/-- What a step that is no reset may do to `RUN`: the rows of R212's table. -/
inductive RunMove (s t : State) : Prop
  | keeps (same : t.run = s.run)
  | waits (before : s.run = .running) (after : t.run = .awaitKey) (fx0a : ∃ w x, s.executes w (.ldVxK x))
  | faults (before : s.run = .running) (after : t.run = .halted) (cause : t.faultCause ≠ 0#3) (pc : t.faultPc = s.pc)
  | resumes (before : s.run = .awaitKey) (after : t.run = .running) (press : ∃ k rest, s.schedule = .press k :: rest)
  | stops (after : t.run = .halted) (stop : ∃ rest, s.schedule = .stop :: rest)

theorem step_runMove (h : step s = .next t) (hreset : ¬ s.resetNext) : RunMove s t := by
  rcases step_cases h with ⟨hnext, hcore⟩ | ⟨rest, -, rfl⟩ | ⟨k, rest, hs, rfl⟩ | ⟨k, rest, -, rfl⟩ |
    ⟨rest, hs, rfl⟩ | ⟨rom, rest, hs, -⟩
  · rcases instructionStep_cases hcore with ⟨-, rfl⟩ | ⟨hrun, -, rfl⟩ | ⟨w, e, hrun, -, -, rfl⟩ |
      ⟨w, i, u, hrun, hf, hd, hu, rfl⟩
    · exact .keeps rfl
    · exact .faults hrun rfl (TrapCause.code_ne_zero .memoryOutOfBounds) rfl
    · exact .faults hrun rfl (TrapCause.code_ne_zero .illegalOpcode) rfl
    · rcases exec_cases hu with ⟨c, -, rfl⟩ | ⟨-, -, -, -, -, -, -, ⟨hkeep, -⟩ | ⟨hwait, x, rfl⟩⟩
      · exact .faults hrun (finish_run _) (by rw [finish_faultCause]; exact c.code_ne_zero) (finish_faultPc _)
      · exact .keeps ((finish_run u).trans hkeep)
      · exact .waits hrun ((finish_run u).trans hwait) ⟨w, x, hrun, hnext, hf, hd⟩
  · exact .keeps (timerTick_run _)
  · by_cases hwait : s.run = .awaitKey
    · exact .resumes hwait (press_run_of_awaitKey hwait) ⟨k, rest, hs⟩
    · exact .keeps (press_run_of_ne_awaitKey hwait)
  · exact .keeps rfl
  · exact .stops (stop_run _) ⟨rest, hs⟩
  · exact absurd ⟨rom, rest, hs⟩ hreset

/-- Settles O52: every move of `RUN` is one that the table permits. -/
theorem runFollowsTheStateMachine : Obligations.RunFollowsTheStateMachine := by
  intro s t h hreset
  cases step_runMove h hreset with
  | keeps same => simp +contextual [same]
  | waits before after fx0a => simp [before, after, fx0a]
  | faults before after cause pc => simp [before, after, cause, pc]
  | resumes before after press => simp [before, after, press]
  | stops after stop => simp [after, stop]

end Sys2Proof.Machine

/-! ## Reset from any state (R260) -/

namespace Sys2Proof.Machine

/-- Whatever the state before, an admissible image is loaded (R77). -/
theorem resetWith_of_romWellFormed (s : State) {rom : List Byte} (h : romWellFormed rom = true) :
    s.resetWith rom =
      .next { State.ofRom rom with rnd := s.rnd, draws := s.draws, schedule := s.schedule, frames := s.frames } :=
  if_pos h

/-- The model's own four fields hold no state of R20. -/
theorem same_withModelFields (s : State) (rnd : List Byte) (draws : Nat) (schedule : List MachineStep)
    (frames : List Frame) {l : Loc} (hrnd : l ≠ .rnd) (hdraws : l ≠ .draws) (hschedule : l ≠ .schedule)
    (hframes : l ≠ .frames) :
    l.same s { s with rnd := rnd, draws := draws, schedule := schedule, frames := frames } := by
  cases l
  case rnd => exact absurd rfl hrnd
  case draws => exact absurd rfl hdraws
  case schedule => exact absurd rfl hschedule
  case frames => exact absurd rfl hframes
  all_goals rfl

/-- Settles O56: a reset answers the state after reset, but for the model's own four fields. -/
theorem resetRestoresEverything : Obligations.ResetRestoresEverything := fun rom s hrom =>
  ⟨_, resetWith_of_romWellFormed s hrom, fun _ => same_withModelFields (State.ofRom rom) _ _ _ _⟩

end Sys2Proof.Machine
